-- ==== Sys2Proof/Word.lean ====
section
/-! DEFINITION. The word types of the performance-monitor block (R6, R9). -/

namespace Sys2Proof

/-- A 32-bit word (`PMC_W` = `SLOT_W` = 32, R6); bit 0 is the least significant (R9). -/
abbrev Word := BitVec 32

/-- A 4-bit command nibble (`NIB_W` = 4, R6). -/
abbrev Nibble := BitVec 4

/-- A monitor's combined 64-bit count (`CNT_W` = 64, R6). -/
abbrev Count := BitVec 64

/-- A sub-counter slot 0..3 (`N_SLOT` = 4, R6): the four-valued type R80 asks for. -/
abbrev Slot := Fin 4

/-- A valid monitor index, 0 or 1 (`N_MON` = 2, R6, R111); also the pair of slots it stands for (R96). -/
abbrev Monitor := Fin 2

/-- An event identifier as the codec request word carries it: four bits, unsigned (R72, R7 clause w8). -/
abbrev Event := BitVec 4

end Sys2Proof
end

