-- ==== Sys2Proof/Config.lean ====
section
/-! DEFINITION. The open parameters CFG of the spec (R7), their well-formedness WF_CFG, the two configurations the spec
writes out (CFG_REF, R8; CFG_ALT, 95_test_vectors.md 2.8), and the free values of the model. -/

namespace Sys2Proof

/-- The configuration record of R7. `run` is the table of `RUN`, indexed by the event identifier; only its entries at valid
events mean anything (R63). `stEinval` is the two's complement word of `ST_EINVAL`. -/
structure Cfg where
  fCh01 : Fin 32
  fCh23 : Fin 32
  fDmt : Fin 32
  fSpriv : Fin 32
  fSdbg : Fin 32
  nibStop : Nibble
  nibReset : Nibble
  run : List Nibble
  evMin : Int
  evMax : Int
  evCycles : Int
  stEinval : Word
  deriving DecidableEq, Repr, Inhabited

namespace Cfg

/-- The bit indices of the five global flags, in the order the source lists them (R7, R23). -/
def flagBits (c : Cfg) : List (Fin 32) := [c.fCh01, c.fCh23, c.fDmt, c.fSpriv, c.fSdbg]

/-- `EV_MIN ≤ e ≤ EV_MAX`, the valid event range, both ends inclusive (R7). -/
abbrev InRange (c : Cfg) (e : Int) : Prop := c.evMin ≤ e ∧ e ≤ c.evMax

/-- `WF_CFG` of R7, clauses w1 to w8 in order. Clause w8 bounds the valid events by 0..15, so w5 and w6 range over those. -/
abbrev WF (c : Cfg) : Prop :=
  c.flagBits.Nodup ∧
  (∀ b ∈ c.flagBits, 16 ≤ b.val) ∧
  c.nibStop ≠ c.nibReset ∧
  (c.evMin ≤ c.evCycles ∧ c.evCycles ≤ c.evMax) ∧
  (∀ e : Fin 16, c.InRange e.val →
    c.run[e.val]?.isSome ∧ c.run[e.val]? ≠ some c.nibStop ∧ c.run[e.val]? ≠ some c.nibReset) ∧
  (∀ e e' : Fin 16, c.InRange e.val → c.InRange e'.val → c.run[e.val]? = c.run[e'.val]? → e = e') ∧
  c.stEinval.toInt < 0 ∧
  (0 ≤ c.evMin ∧ c.evMax ≤ 15)

end Cfg

/-- The reference configuration `CFG_REF` (R8): general knowledge, for the test vectors and the opcode table's NIB rows. -/
def cfgRef : Cfg where
  fCh01 := 16
  fCh23 := 17
  fDmt := 18
  fSpriv := 19
  fSdbg := 20
  nibStop := 0xE#4
  nibReset := 0xF#4
  run := [0, 1, 2, 3, 4, 5, 6, 7, 8, 9, 10, 11, 12, 13]
  evMin := 0
  evMax := 13
  evCycles := 0
  stEinval := 0xFFFFFFEA#32

/-- The second configuration `CFG_ALT` (95_test_vectors.md 2.8): `RUN(e) = e + 2`, events 1..12. -/
def cfgAlt : Cfg where
  fCh01 := 30
  fCh23 := 31
  fDmt := 24
  fSpriv := 25
  fSdbg := 26
  nibStop := 0x0#4
  nibReset := 0x1#4
  run := [2, 3, 4, 5, 6, 7, 8, 9, 10, 11, 12, 13, 14]
  evMin := 1
  evMax := 12
  evCycles := 1
  stEinval := 0xFFFFFFFF#32

namespace Config

/-- FREE VALUE. `draw T` of R10 for 32-bit words: the n-th word the environment chooses, under no law (log 1, log 4). -/
opaque freeWord : Nat → Word

/-- FREE VALUE. The chip's configuration: the source names these values and prints none (R7, D2 to D6; log 2). -/
opaque chip : Cfg

/-- The configuration after reset: the chip's, constrained by `WF_CFG` as R7 asks. The other branch is never the chip's: it only
makes the definition total (log 2). -/
def chipCfg : Cfg := if chip.WF then chip else cfgRef

end Config

end Sys2Proof
end

