-- ==== Sys2Proof/Syntax.lean ====
section
/-! DEFINITION. The instructions: one constructor for each row of spec/opcode_table.json, the words that carry them (R60), what a
nibble is read as (R90), and why a word is not an instruction. -/

namespace Sys2Proof

/-- The twelve operations of opcode_table.json: five of format CMD (R69), four of format CODEC (R72), three of format NIB (R62).
A nibble's slot is given by its position in PMC (R22), which is the operand `k` of the NIB constructors (log 9). -/
inductive Instr where
  /-- SETUP (R115). -/
  | setup
  /-- START (R116): the monitor and event fields, 32-bit two's complement (R68). -/
  | start (mon : Word) (ev : Word)
  /-- STOP (R117). -/
  | stop (mon : Word)
  /-- READ (R130). -/
  | read (mon : Word)
  /-- RESETM (R114), internal to SEQ: "a model gives its argument the type of valid monitors". -/
  | resetm (m : Monitor)
  /-- MASK (R81). -/
  | mask (k : Slot)
  /-- ENC_START (R82). -/
  | encStart (k : Slot) (ev : Event)
  /-- ENC_STOP (R83). -/
  | encStop (k : Slot)
  /-- ENC_RESET (R84). -/
  | encReset (k : Slot)
  /-- NIB_RUN(e) (R91) at slot `k`. -/
  | nibRun (k : Slot) (ev : Event)
  /-- NIB_STOP (R92) at slot `k`. -/
  | nibStop (k : Slot)
  /-- NIB_RESET (R93) at slot `k`. -/
  | nibReset (k : Slot)
  deriving DecidableEq, Repr

/-- The words an instruction comes in, by format (R60). -/
inductive EncWord where
  /-- CMD: `op` 66:64, `mon` 63:32, `ev` 31:0 (R68). -/
  | cmd (w : BitVec 67)
  /-- CODEC: `fn` 7:6, `slot` 5:4, `ev4` 3:0 (R72). -/
  | codec (w : BitVec 8)
  /-- NIB: the nibble at bits 4k+3:4k of PMC (R62, R22). -/
  | nib (k : Slot) (n : Nibble)
  deriving DecidableEq, Repr

/-- `cmd(s)` of R90: what the sub-counter hardware reads a nibble as. -/
inductive NibCmd where
  | run (ev : Event)
  | stop
  | reset
  | reserved
  deriving DecidableEq, Repr

/-- Why a word is no instruction. -/
inductive DecodeError where
  /-- `op` = 5, 6 or 7 (R69, R70). -/
  | reservedOp (op : BitVec 3)
  /-- RESETM's word with a monitor field that is neither 0 nor 1: "it is never invoked with an invalid m" (R114). -/
  | resetmMonitor (mon : Word)
  /-- A nibble value that is none of the three commands (R66). -/
  | reservedNibble (n : Nibble)
  deriving DecidableEq, Repr

end Sys2Proof
end

