-- ==== Sys2Proof/Machine/Fields.lean ====
section
/-! DEFINITION. Bit fields of the control word and of the command and request words, slot placement, and the reading of a nibble
(R22, R63, R64, R68, R72, R90). -/

namespace Sys2Proof.Machine

/-- `NIB[k] = w[4k+3 : 4k]` (R22). -/
def nib (w : Word) (k : Slot) : Nibble := w.extractLsb' (4 * k.val) 4

/-- `zext_32(n) << (4·k)` (R64): bits 4k+3 : 4k hold n, every other bit is 0. -/
def place (n : Nibble) (k : Slot) : Word := n.setWidth 32 <<< (4 * k.val)

/-- `(w & ~K) | V` (R65): clear first, then OR. -/
def install (w : Word) (K : Word) (V : Word) : Word := (w &&& ~~~K) ||| V

/-- `pmX(m) = LOW(m) = 2·m` (R6, R28). -/
def lowSlot (m : Monitor) : Slot := ⟨2 * m.val, by omega⟩

/-- `pmY(m) = HIGH(m) = 2·m + 1` (R6, R28). -/
def highSlot (m : Monitor) : Slot := ⟨2 * m.val + 1, by omega⟩

/-- The pair (monitor) a slot belongs to: pair p is slots 2p and 2p+1 (R96). -/
def pairOf (k : Slot) : Monitor := ⟨k.val / 2, by omega⟩

/-- Every 4-bit event identifier. -/
def allEvents : List Event := [0, 1, 2, 3, 4, 5, 6, 7, 8, 9, 10, 11, 12, 13, 14, 15]

/-- `valid_ev(e)` on signed integers (R112). -/
def validEv (c : Cfg) (e : Int) : Bool := decide (c.evMin ≤ e) && decide (e ≤ c.evMax)

/-- `RUN(e)`: defined for valid events only (R63). -/
def runOf (c : Cfg) (e : Event) : Option Nibble := if validEv c e.toNat then c.run[e.toNat]? else none

/-- `cmd(s)` on the nibble value n, in the order of R90. -/
def nibCmd (c : Cfg) (n : Nibble) : NibCmd :=
  if n = c.nibReset then .reset
  else if n = c.nibStop then .stop
  else match allEvents.find? (fun e => runOf c e == some n) with
    | some e => .run e
    | none => .reserved

/-- `cmd(k)` of the control word w (R90): a function of the stored word at every step, level-sensitive. -/
def slotCmd (c : Cfg) (w : Word) (k : Slot) : NibCmd := nibCmd c (nib w k)

/-- `op` of a command word (R68). -/
def cwOp (w : BitVec 67) : BitVec 3 := w.extractLsb' 64 3

/-- `mon` of a command word (R68). -/
def cwMon (w : BitVec 67) : Word := w.extractLsb' 32 32

/-- `ev` of a command word (R68). -/
def cwEv (w : BitVec 67) : Word := w.extractLsb' 0 32

/-- A command word from its three fields (R68). -/
def cwOf (op : BitVec 3) (mon : Word) (ev : Word) : BitVec 67 := op ++ mon ++ ev

/-- `fn` of a codec request word (R72). -/
def cqFn (w : BitVec 8) : BitVec 2 := w.extractLsb' 6 2

/-- `slot` of a codec request word (R72). -/
def cqSlot (w : BitVec 8) : Slot := (w.extractLsb' 4 2).toFin

/-- `ev4` of a codec request word (R72). -/
def cqEv (w : BitVec 8) : Event := w.extractLsb' 0 4

/-- A codec request word from its three fields (R72). -/
def cqOf (fn : BitVec 2) (k : Slot) (ev : Event) : BitVec 8 := fn ++ BitVec.ofFin (w := 2) k ++ ev

end Sys2Proof.Machine
end

