-- ==== Sys2Proof/Machine/Operands.lean ====
section
/-! DEFINITION. The operands of the commands: a monitor and an event, each a 32-bit two's complement integer judged by value
(R68, R71, R111, R112). -/

namespace Sys2Proof.Machine

/-- `valid_mon(m)` on signed integers: exactly 0 and 1 (R111). -/
def validMon (m : Int) : Bool := m == 0 || m == 1

/-- The monitor a 32-bit argument names: decided on the whole value, never on its low bits (R111). -/
def monitorOf (x : Word) : Option Monitor :=
  if x.toInt = 0 then some 0 else if x.toInt = 1 then some 1 else none

/-- The event a 32-bit argument names, when it is in the valid range (R112); by clause w8 of `WF_CFG` it then fits the codec's four
bits (R63, R72). -/
def eventOf (c : Cfg) (x : Word) : Option Event :=
  if validEv c x.toInt then some (x.setWidth 4) else none

end Sys2Proof.Machine
end

