-- ==== Sys2Proof/WellFormed.lean ====
section
/-! DEFINITION. Which instruction terms are well formed under a configuration: the two that carry an event must carry a valid one
(R82, R91). Every argument of a command is well formed: its validity is a matter of value (R71). -/

namespace Sys2Proof

/-- Well-formedness of an instruction under `c`. ENC_START's precondition is a valid event (R82); NIB_RUN(e) exists for valid events
only (R62, R63). -/
def Instr.wf (c : Cfg) : Instr → Bool
  | .encStart _ ev => Machine.validEv c ev.toNat
  | .nibRun _ ev => Machine.validEv c ev.toNat
  | .setup | .start _ _ | .stop _ | .read _ | .resetm _ => true
  | .mask _ | .encStop _ | .encReset _ | .nibStop _ | .nibReset _ => true

end Sys2Proof
end

