-- ==== Sys2Proof/Decode.lean ====
section
/-! DEFINITION. From words to instructions, total and rejecting by name, and from well-formed instructions to words (R60 to R72, R90). -/

namespace Sys2Proof

open Machine

/-- A command word (R68, R69). Fields an operation does not use are ignored (R70). -/
def decodeCmd (w : BitVec 67) : Except DecodeError Instr :=
  match (cwOp w).toNat with
  | 0 => .ok .setup
  | 1 => .ok (.start (cwMon w) (cwEv w))
  | 2 => .ok (.stop (cwMon w))
  | 3 => .ok (.read (cwMon w))
  | 4 => match monitorOf (cwMon w) with
    | some m => .ok (.resetm m)
    | none => .error (.resetmMonitor (cwMon w))
  | _ => .error (.reservedOp (cwOp w))

/-- A codec request word (R72): all four values of `fn` and every slot are used, so nothing is rejected here; ENC_START with an event
outside the valid range is ill formed (`Instr.wf`) and its meaning refuses it (R82, R154). -/
def decodeCodec (w : BitVec 8) : Instr :=
  match (cqFn w).toNat with
  | 0 => .mask (cqSlot w)
  | 1 => .encStart (cqSlot w) (cqEv w)
  | 2 => .encStop (cqSlot w)
  | _ => .encReset (cqSlot w)

/-- The nibble n at slot k (R62, R90). A reserved value is no command (R66). -/
def decodeNib (c : Cfg) (k : Slot) (n : Nibble) : Except DecodeError Instr :=
  match nibCmd c n with
  | .run ev => .ok (.nibRun k ev)
  | .stop => .ok (.nibStop k)
  | .reset => .ok (.nibReset k)
  | .reserved => .error (.reservedNibble n)

/-- Decoding of a word of any format. -/
def decode (c : Cfg) : EncWord → Except DecodeError Instr
  | .cmd w => decodeCmd w
  | .codec w => .ok (decodeCodec w)
  | .nib k n => decodeNib c k n

/-- The word of an instruction, with the fields it does not use 0 (R62, R68, R72). None for NIB_RUN of an event `RUN` is not defined
for (R63). -/
def encode (c : Cfg) : Instr → Option EncWord
  | .setup => some (.cmd (cwOf 0 0 0))
  | .start mon ev => some (.cmd (cwOf 1 mon ev))
  | .stop mon => some (.cmd (cwOf 2 mon 0))
  | .read mon => some (.cmd (cwOf 3 mon 0))
  | .resetm m => some (.cmd (cwOf 4 (BitVec.ofNat 32 m.val) 0))
  | .mask k => some (.codec (cqOf 0 k 0))
  | .encStart k ev => some (.codec (cqOf 1 k ev))
  | .encStop k => some (.codec (cqOf 2 k 0))
  | .encReset k => some (.codec (cqOf 3 k 0))
  | .nibRun k ev => (runOf c ev).map (.nib k)
  | .nibStop k => some (.nib k c.nibStop)
  | .nibReset k => some (.nib k c.nibReset)

/-- A row of opcode_table.json as a word of its format. CMD rows are 67 bits (72 in whole bytes), CODEC rows 8, NIB rows 4. In whole bytes
a NIB row also has 8 bits: an 8-bit word whose upper nibble is 0 and whose lower is not is read as the NIB row at slot 0 (the table's MASK
row has its ignored bits 0); the machine itself never meets this ambiguity, its three formats arrive on different paths (log 12). -/
def tableWord (nbits w : Nat) : Option EncWord :=
  if nbits = 67 ∨ nbits = 72 then
    if w < 2 ^ 67 then some (.cmd (BitVec.ofNat 67 w)) else none
  else if nbits = 4 then
    if w < 16 then some (.nib 0 (BitVec.ofNat 4 w)) else none
  else if nbits = 8 then
    if 0 < w ∧ w < 16 then some (.nib 0 (BitVec.ofNat 4 w))
    else if w < 256 then some (.codec (BitVec.ofNat 8 w)) else none
  else none

/-- The instruction the decoder reads from a table row's word. The table prints its NIB rows under CFG_REF (R8). -/
def decodeTableWord (nbits w : Nat) : Option Instr :=
  match tableWord nbits w with
  | some ew => match decode cfgRef ew with
    | .ok i => some i
    | .error _ => none
  | none => none

end Sys2Proof
end

