-- ==== Sys2Proof/Machine/Flags.lean ====
section
/-! DEFINITION. The block has no condition codes (R34). Its flags are the five global flag bits of PMC (R23), and here are also the
reserved bits (R24) and the status predicates of a slot and of a pair, all functions of PMC and CFG (R96, R100, R102). -/

namespace Sys2Proof.Machine

/-- The word with one bit set. -/
def bitWord (i : Fin 32) : Word := 1#32 <<< i.val

/-- `FLAGS_ALL` (R23). -/
def flagsAll (c : Cfg) : Word :=
  bitWord c.fCh01 ||| bitWord c.fCh23 ||| bitWord c.fDmt ||| bitWord c.fSpriv ||| bitWord c.fSdbg

/-- `RSVD_MASK = ~(0x0000_FFFF | FLAGS_ALL)` (R24). -/
def rsvdMask (c : Cfg) : Word := ~~~(0x0000FFFF#32 ||| flagsAll c)

/-- The flags CH01 and CH23 (R23) as the chain flag `CH(p)` of a pair (R96). -/
def chained (c : Cfg) (w : Word) (p : Monitor) : Bool :=
  if p = 0 then w.getLsbD c.fCh01.val else w.getLsbD c.fCh23.val

/-- The flag DMT, disengage-monitor-timer: stored, without effect (R101). -/
def dmt (c : Cfg) (w : Word) : Bool := w.getLsbD c.fDmt.val

/-- The flag SPRIV, stop-in-privileged: stored, without effect (R101). -/
def spriv (c : Cfg) (w : Word) : Bool := w.getLsbD c.fSpriv.val

/-- The flag SDBG, stop-in-debug: stored, without effect (R101). -/
def sdbg (c : Cfg) (w : Word) : Bool := w.getLsbD c.fSdbg.val

/-- All five flags are set. -/
def flagsSet (c : Cfg) (w : Word) : Bool := w &&& flagsAll c == flagsAll c

/-- `counting(p, e)`: chained, and both slots under Run(e) with the same e (R96). -/
def counting (c : Cfg) (w : Word) (p : Monitor) (e : Event) : Bool :=
  chained c w p && slotCmd c w (lowSlot p) == .run e && slotCmd c w (highSlot p) == .run e

/-- A command that is Run or Reserved. -/
def NibCmd.active : NibCmd → Bool
  | .run _ | .reserved => true
  | .stop | .reset => false

/-- `undefined(p)`: a slot is under Run or Reserved and `counting(p, e)` holds for no e (R100). -/
def undefinedPair (c : Cfg) (w : Word) (p : Monitor) : Bool :=
  (NibCmd.active (slotCmd c w (lowSlot p)) || NibCmd.active (slotCmd c w (highSlot p))) &&
    allEvents.all (fun e => !counting c w p e)

/-- `quiet(p)`: each slot is under Stop or Reset (R102). -/
def quiet (c : Cfg) (w : Word) (p : Monitor) : Bool :=
  !NibCmd.active (slotCmd c w (lowSlot p)) && !NibCmd.active (slotCmd c w (highSlot p))

end Sys2Proof.Machine
end

