-- ==== Sys2Proof/Machine/State.lean ====
section
/-! DEFINITION. The state of one instance of the block (R20), the moves its agents can make (R11), why a step can stop, and the state after
reset (R36). -/

namespace Sys2Proof.Machine

/-- The sequencer phase `pc` (R31): `idle`, and one phase for each port access of each operation. RESETM has none of its own. -/
inductive Phase where
  | idle
  | setupS0 | setupS1 | setupS2 | setupS3 | setupS4 | setupS5
  | startT0 | startT1 | startT2
  | stopP0 | stopP1
  | readR0 | readR1
  deriving DecidableEq, Repr

/-- One access of the port, with the value it moved: exactly the three constructors of R41. -/
inductive PortAccess where
  | rdPmc (v : Word)
  | wrPmc (v : Word)
  | rdPm (k : Slot) (v : Word)
  deriving DecidableEq, Repr

/-- What an agent can do next (R11). The schedule of these moves is free, and it is data. -/
inductive Move where
  /-- SEQ takes its next step. -/
  | seq
  /-- CNT acts once on the command of slot k: a COUNT step, a HAVOC step, or nothing, as the pair is counting, undefined or quiet. -/
  | cnt (k : Slot)
  /-- EXT writes PMC (R49). -/
  | extWrite (v : Word)
  /-- EXT reads PMC (R49). -/
  | extRead
  /-- CALLER presents a command word (R68). -/
  | caller (w : BitVec 67)
  /-- SEQ's own path for the internal command word RESETM (R60, R69). -/
  | internal (w : BitVec 67)
  /-- A codec request word (R72). -/
  | codec (w : BitVec 8)
  /-- The processing unit is reset (R160). -/
  | hwReset
  /-- No agent's move: the model's step ends here, with the operation in progress kept in `pc` (log 3). -/
  | pause
  deriving DecidableEq, Repr

/-- One instance of the block. -/
structure State where
  /-- The control register (R21). -/
  pmc : Word
  /-- The four sub-counter registers (R27). -/
  pm : Vector Word 4
  /-- Latch x[M], the monitor argument (R30). -/
  xM : Word
  /-- Latch x[E], the event argument (R30). -/
  xE : Word
  /-- Latch x[W], the control word last fetched (R30). -/
  xW : Word
  /-- Latch x[HI] (R30). -/
  xHI : Word
  /-- Latch x[LO] (R30). -/
  xLO : Word
  /-- The sequencer phase (R31). -/
  pc : Phase
  /-- Result register of START and STOP (R32). -/
  status : Word
  /-- Result register of READ (R32). -/
  value : Count
  /-- Ghost: SETUP has completed since reset (R33). -/
  setupDone : Bool
  /-- The parameters CFG (R7): no state of the block, an argument of its step (R35 (a)); no step changes it. -/
  cfg : Cfg
  /-- The moves still to come (R11, R35 (d)). -/
  schedule : List Move
  /-- How many free words have been drawn (R10). -/
  drawn : Nat
  /-- The word the codec answered last (R72): wires, no register. -/
  codecOut : Word
  /-- Port accesses SEQ has made, newest first (R12). -/
  trace : List PortAccess
  deriving DecidableEq, Repr

/-- Why the machine stops with a fault. -/
inductive Fault where
  /-- Raised by READ's two phases when latch x[M] is no valid monitor, so that the address `A_PM0 + s` would lie outside the register
  space (R54: "No operation can produce an address outside the register space"). No run reaches it. Safe. -/
  | noRegister
  deriving DecidableEq, Repr

/-- Why a step is refused. A refusal changes no state and marks the run (R154). -/
inductive Refusal where
  /-- An instruction without a meaning in this model: raised by `exec`'s arms only. Safe. -/
  | notModelled (mnemonic : String)
  /-- A word that is no instruction, on the command port or the internal path (R70, R154). Raised by `presentCaller` and
  `presentInternal`. Safe. -/
  | undecodable (e : DecodeError)
  /-- A command word on a path that does not accept it: RESETM presented by CALLER (R70), or another operation on SEQ's internal path.
  Raised by `presentCaller` and `presentInternal`. Safe. -/
  | internalOp
  /-- A command presented at `pc ≠ IDLE` (R169, R154). Raised by SETUP, START, STOP, READ and by `agentStep`. Safe. -/
  | busy
  /-- A codec call outside its precondition (R80, R82, R154): raised by ENC_START with an invalid event, and by a phase of START or STOP
  whose latches hold no valid argument, which no run reaches. Safe. -/
  | codecPrecondition
  deriving DecidableEq, Repr

/-- The outcome of a step of this machine. -/
abbrev Result := Host.Outcome State Fault Refusal

/-- The state right after a hardware reset (R36, R160): `pc = IDLE`, `setup_done = 0`, everything else a draw. Logs 1, 2, 3. -/
def State.reset : State where
  pmc := Config.freeWord 0
  pm := #v[Config.freeWord 1, Config.freeWord 2, Config.freeWord 3, Config.freeWord 4]
  xM := Config.freeWord 5
  xE := Config.freeWord 6
  xW := Config.freeWord 7
  xHI := Config.freeWord 8
  xLO := Config.freeWord 9
  pc := .idle
  status := Config.freeWord 10
  value := Config.freeWord 11 ++ Config.freeWord 12
  setupDone := false
  cfg := Config.chipCfg
  schedule := []
  drawn := 13
  codecOut := 0
  trace := []

end Sys2Proof.Machine
end

