-- ==== Sys2Proof/Machine/Ops.lean ====
section
/-! DEFINITION. The named operations over the registers: the register space and its access port (R40 to R47), the effect of a PMC write
(R95), the counters' own steps (R97, R100), the failure response (R10, R144) and the hardware reset (R160).

The block takes no exception and returns from none (R140, R145). What stands in the place of exception entry is `fail`: the one
shared operation every failing command ends in. -/

namespace Sys2Proof.Machine

/-- Sequencing of outcomes: a fault or a refusal ends the run of moves. -/
def andThen (r : Result) (f : State → Result) : Result :=
  match r with
  | .next s => f s
  | .fault e => .fault e
  | .refused e => .refused e

/-- `pc <- target` (R10). -/
def goto (p : Phase) (s : State) : State := { s with pc := p }

/-- `ST_OK` (R32). -/
def stOk : Word := 0

/-- `READ_SENTINEL` (R6, R73). -/
def readSentinel : Count := 0xFFFFFFFFFFFFFFFF#64

/-- `fail(st)`: `STATUS <- st; pc <- IDLE`, with no port access (R10, R144). -/
def fail (st : Word) (s : State) : State := { s with status := st, pc := .idle }

/-- `STATUS <- ST_OK; pc <- IDLE`, the end of START and STOP (R116, R117). -/
def succeed (s : State) : State := { s with status := stOk, pc := .idle }

/-! ## The register space -/

/-- `C(p) = PM[HIGH(p)] ‖ PM[LOW(p)]` (R29). -/
def count (s : State) (p : Monitor) : Count := s.pm[highSlot p] ++ s.pm[lowSlot p]

/-- The counters after a store of w into PMC: each slot whose nibble in w is `NIB_RESET` is zero, the others as they were (R95). -/
def resetCounters (c : Cfg) (w : Word) (pm : Vector Word 4) : Vector Word 4 :=
  #v[if nib w 0 = c.nibReset then 0 else pm[0],
     if nib w 1 = c.nibReset then 0 else pm[1],
     if nib w 2 = c.nibReset then 0 else pm[2],
     if nib w 3 = c.nibReset then 0 else pm[3]]

/-- `WrPMC(v)`, by any agent (R95). -/
def wrPmc (v : Word) (s : State) : State :=
  { s with pmc := v, pm := resetCounters s.cfg v s.pm }

/-- `RdPMC()` (R41). -/
def rdPmc (s : State) : Word := s.pmc

/-- `RdPM(k)` (R41). -/
def rdPm (s : State) (k : Slot) : Word := s.pm[k]

/-- `MemRead(a, n)` (R42): the registers at addresses 0..4, width 4 only; anything else is not defined. -/
def memRead (s : State) (a n : Nat) : Option Word :=
  if n = 4 then
    if a = 0 then some (rdPmc s) else if h : a - 1 < 4 then some (rdPm s ⟨a - 1, h⟩) else none
  else none

/-- `MemWrite(a, n, v)` (R42): PMC only, width 4 only; anything else is not defined. -/
def memWrite (s : State) (a n : Nat) (v : Word) : Option State :=
  if n = 4 ∧ a = 0 then some (wrPmc v s) else none

/-- The register-space address of an access (R40). -/
def PortAccess.addr : PortAccess → Nat
  | .rdPmc _ | .wrPmc _ => 0
  | .rdPm k _ => 1 + k.val

/-! ## SEQ's accesses, each one step -/

/-- `x[W] <- RdPMC()`. -/
def fetchPmc (s : State) : State := { s with xW := rdPmc s, trace := .rdPmc (rdPmc s) :: s.trace }

/-- `WrPMC(v)` by SEQ. -/
def storePmc (v : Word) (s : State) : State := { wrPmc v s with trace := .wrPmc v :: s.trace }

/-- `x[HI] <- RdPM(k)`. -/
def fetchHigh (k : Slot) (s : State) : State := { s with xHI := rdPm s k, trace := .rdPm k (rdPm s k) :: s.trace }

/-- `x[LO] <- RdPM(k)`. -/
def fetchLow (k : Slot) (s : State) : State := { s with xLO := rdPm s k, trace := .rdPm k (rdPm s k) :: s.trace }

/-! ## The counters' own steps -/

/-- `PM[k] <- 0` (R93). -/
def zeroSlot (k : Slot) (s : State) : State := { s with pm := s.pm.set k 0 }

/-- Both halves of pair p take the 64-bit value c (R97). -/
def setPair (p : Monitor) (c : Count) (pm : Vector Word 4) : Vector Word 4 :=
  (pm.set (highSlot p) (c.extractLsb' 32 32)).set (lowSlot p) (c.extractLsb' 0 32)

/-- `COUNT(p)`: the 64-bit count plus 1, modulo 2^64, carry and all in one step (R97, R98). -/
def countPair (p : Monitor) (s : State) : State := { s with pm := setPair p (count s p + 1) s.pm }

/-- `HAVOC(p)`: both counters take a free word (R100). -/
def havocPair (p : Monitor) (s : State) : State :=
  { s with
    pm := (s.pm.set (lowSlot p) (Config.freeWord s.drawn)).set (highSlot p) (Config.freeWord (s.drawn + 1))
    drawn := s.drawn + 2 }

/-- Hardware reset of the processing unit (R36, R160, R161): `pc = IDLE`, `setup_done = 0`, all else drawn anew. -/
def hardwareReset (s : State) : State :=
  { s with
    pmc := Config.freeWord s.drawn
    pm := #v[Config.freeWord (s.drawn + 1), Config.freeWord (s.drawn + 2),
             Config.freeWord (s.drawn + 3), Config.freeWord (s.drawn + 4)]
    xM := Config.freeWord (s.drawn + 5)
    xE := Config.freeWord (s.drawn + 6)
    xW := Config.freeWord (s.drawn + 7)
    xHI := Config.freeWord (s.drawn + 8)
    xLO := Config.freeWord (s.drawn + 9)
    pc := .idle
    status := Config.freeWord (s.drawn + 10)
    value := Config.freeWord (s.drawn + 11) ++ Config.freeWord (s.drawn + 12)
    setupDone := false
    drawn := s.drawn + 13 }

end Sys2Proof.Machine
end

