-- ==== Sys2Proof/Machine/Codec.lean ====
section
/-! DEFINITION. The Register Codec: MASK, ENC_START, ENC_STOP, ENC_RESET (R80 to R86), the pair words built from them (R113), and the
meanings of the four CODEC rows. The functions read no state and write none; what the request form adds is the answer on `codecOut`. -/

namespace Sys2Proof.Machine

/-- `MASK(k) = 0x0000_000F << (4·k)` (R81). -/
def mask (k : Slot) : Word := 0x0000000F#32 <<< (4 * k.val)

/-- `ENC_START(k, e)`, defined for valid events only (R82). -/
def encStart (c : Cfg) (k : Slot) (e : Event) : Option Word := (runOf c e).map (fun n => place n k)

/-- `ENC_STOP(k)` (R83). -/
def encStop (c : Cfg) (k : Slot) : Word := place c.nibStop k

/-- `ENC_RESET(k)` (R84). -/
def encReset (c : Cfg) (k : Slot) : Word := place c.nibReset k

/-- `MM(m)`, "only the two nibbles belonging to that monitor" (R113). -/
def monMask (m : Monitor) : Word := mask (lowSlot m) ||| mask (highSlot m)

/-- `RESET2(m)` (R113). -/
def reset2 (c : Cfg) (m : Monitor) : Word := encReset c (lowSlot m) ||| encReset c (highSlot m)

/-- `STOP2(m)` (R113). -/
def stop2 (c : Cfg) (m : Monitor) : Word := encStop c (lowSlot m) ||| encStop c (highSlot m)

/-- `START2(m, e)` (R113), defined for valid events only. -/
def start2 (c : Cfg) (m : Monitor) (e : Event) : Option Word :=
  match encStart c (lowSlot m) e, encStart c (highSlot m) e with
  | some a, some b => some (a ||| b)
  | _, _ => none

/-- `ALLMASK` (R113). -/
def allMask : Word := mask 0 ||| mask 1 ||| mask 2 ||| mask 3

/-- `STOPALL` (R113). -/
def stopAll (c : Cfg) : Word := encStop c 0 ||| encStop c 1 ||| encStop c 2 ||| encStop c 3

/-- The codec answers a request word (R72). -/
def answer (v : Word) (s : State) : State := { s with codecOut := v }

/-- MASK (R81). -/
def execMask (k : Slot) (s : State) : Result := .next (answer (mask k) s)

/-- ENC_START (R82): with an event outside the valid range the function has no value and the call is refused (R154, U10). -/
def execEncStart (k : Slot) (e : Event) (s : State) : Result :=
  match encStart s.cfg k e with
  | some v => .next (answer v s)
  | none => .refused .codecPrecondition

/-- ENC_STOP (R83). -/
def execEncStop (k : Slot) (s : State) : Result := .next (answer (encStop s.cfg k) s)

/-- ENC_RESET (R84). -/
def execEncReset (k : Slot) (s : State) : Result := .next (answer (encReset s.cfg k) s)

/-- A codec request word, wherever it falls in the schedule (R72, R80). -/
def codecStep (w : BitVec 8) (s : State) : Result :=
  match (cqFn w).toNat with
  | 0 => execMask (cqSlot w) s
  | 1 => execEncStart (cqSlot w) (cqEv w) s
  | 2 => execEncStop (cqSlot w) s
  | _ => execEncReset (cqSlot w) s

end Sys2Proof.Machine
end

