-- ==== Sys2Proof/Machine/Controller.lean ====
section
/-! DEFINITION. The Monitor Controller's phases, one port access each: RESETM's two steps and the phases of SETUP, START and STOP
(R114 to R117). -/

namespace Sys2Proof.Machine

/-- RESETM step a: `x[W] <- RdPMC()` (R114). -/
def resetmRead (s : State) : State := fetchPmc s

/-- RESETM step b: `WrPMC((x[W] & ~MM(m)) | RESET2(m))` (R114). The pre-reset word stays in x[W]. -/
def resetmWrite (m : Monitor) (s : State) : State := storePmc (install s.xW (monMask m) (reset2 s.cfg m)) s

/-- The word SETUP writes at S1: `(w & ~ALLMASK) | STOPALL | FLAGS_ALL` (R115). -/
def setupWord (c : Cfg) (w : Word) : Word := install w allMask (stopAll c ||| flagsAll c)

/-- SETUP.S0 (R115). -/
def setupS0 (s : State) : Result := .next (goto .setupS1 (fetchPmc s))

/-- SETUP.S1: stop all four slots, set the five flags (R115). -/
def setupS1 (s : State) : Result := .next (goto .setupS2 (storePmc (setupWord s.cfg s.xW) s))

/-- SETUP.S2: RESETM(0), step a. -/
def setupS2 (s : State) : Result := .next (goto .setupS3 (resetmRead s))

/-- SETUP.S3: RESETM(0), step b. -/
def setupS3 (s : State) : Result := .next (goto .setupS4 (resetmWrite 0 s))

/-- SETUP.S4: RESETM(1), step a. -/
def setupS4 (s : State) : Result := .next (goto .setupS5 (resetmRead s))

/-- SETUP.S5: RESETM(1), step b; `setup_done <- 1; pc <- IDLE`. -/
def setupS5 (s : State) : Result := .next { goto .idle (resetmWrite 1 s) with setupDone := true }

/-- START.T0: RESETM(m), step a (R116). -/
def startT0 (s : State) : Result := .next (goto .startT1 (resetmRead s))

/-- START.T1: RESETM(m), step b: counters zero (R116). -/
def startT1 (s : State) : Result :=
  match monitorOf s.xM with
  | some m => .next (goto .startT2 (resetmWrite m s))
  | none => .refused .codecPrecondition

/-- START.T2, from the word T0 fetched: `WrPMC((x[W] & ~MM(m)) | START2(m, e)); STATUS <- ST_OK; pc <- IDLE` (R116). -/
def startT2 (s : State) : Result :=
  match monitorOf s.xM, eventOf s.cfg s.xE with
  | some m, some e =>
    match start2 s.cfg m e with
    | some v => .next (succeed (storePmc (install s.xW (monMask m) v) s))
    | none => .refused .codecPrecondition
  | _, _ => .refused .codecPrecondition

/-- STOP.P0 (R117). -/
def stopP0 (s : State) : Result := .next (goto .stopP1 (fetchPmc s))

/-- STOP.P1: `WrPMC((x[W] & ~MM(m)) | STOP2(m)); STATUS <- ST_OK; pc <- IDLE` (R117). -/
def stopP1 (s : State) : Result :=
  match monitorOf s.xM with
  | some m => .next (succeed (storePmc (install s.xW (monMask m) (stop2 s.cfg m)) s))
  | none => .refused .codecPrecondition

end Sys2Proof.Machine
end

