-- ==== Sys2Proof/Machine/Reader.lean ====
section
/-! DEFINITION. The read-sequencer's two phases (R130 to R135). -/

namespace Sys2Proof.Machine

/-- `(zext_64(hi) << 32) | zext_64(lo)` (R132). -/
def combine (hi lo : Word) : Count := (hi.setWidth 64 <<< 32) ||| lo.setWidth 64

/-- READ.R0: the high half first (R130, R131). -/
def readR0 (s : State) : Result :=
  match monitorOf s.xM with
  | some m => .next (goto .readR1 (fetchHigh (highSlot m) s))
  | none => .fault .noRegister

/-- READ.R1: the low half, the combination, `pc <- IDLE` (R130). No retry (R135). -/
def readR1 (s : State) : Result :=
  match monitorOf s.xM with
  | some m =>
    let t := fetchLow (lowSlot m) s
    .next { t with value := combine t.xHI t.xLO, pc := .idle }
  | none => .fault .noRegister

end Sys2Proof.Machine
end

