-- ==== Sys2Proof/Machine/Slots.lean ====
section
/-! DEFINITION. The slot commands NIB_RUN, NIB_STOP, NIB_RESET: what the sub-counter hardware does with the command of a nibble
(R90 to R103). -/

namespace Sys2Proof.Machine

/-- NIB_RUN(e) at slot k, obeyed once (R91): where the pair counts e, one COUNT step (R97); where the pair is undefined, one HAVOC step
(R100). Where the stored word makes the pair neither, no step of the counters is enabled and nothing changes. -/
def execNibRun (k : Slot) (e : Event) (s : State) : Result :=
  .next (if counting s.cfg s.pmc (pairOf k) e then countPair (pairOf k) s
    else if undefinedPair s.cfg s.pmc (pairOf k) then havocPair (pairOf k) s
    else s)

/-- NIB_STOP at slot k: the slot is frozen, its counter stays (R92). -/
def execNibStop (_k : Slot) (s : State) : Result := .next s

/-- NIB_RESET at slot k: "zero this counter and leave it idle" (R93). The hardware obeys it when a PMC write stores the nibble (R95,
log 7). -/
def execNibReset (k : Slot) (s : State) : Result := .next (zeroSlot k s)

/-- CNT's turn at slot k: what it does follows the stored nibble (R90, level-sensitive). An idle slot is not touched: its zeroing belongs to
the write that stored the nibble (R93). A reserved nibble makes the pair undefined (R94). -/
def cntStep (k : Slot) (s : State) : Result :=
  match slotCmd s.cfg s.pmc k with
  | .run e => execNibRun k e s
  | .stop => execNibStop k s
  | .reset => .next s
  | .reserved => .next (havocPair (pairOf k) s)

end Sys2Proof.Machine
end

