-- ==== Sys2Proof/Machine/Sequencer.lean ====
section
/-! DEFINITION. One step of each agent (R11), and how an operation runs to its end among them: its port accesses in order, one per SEQ
step, with the moves of the schedule between them (R47, R110). -/

namespace Sys2Proof.Machine

/-- One SEQ step: the port access of the current phase (R31). At IDLE the sequencer has nothing to do. -/
def seqStep (s : State) : Result :=
  match s.pc with
  | .idle => .next s
  | .setupS0 => setupS0 s
  | .setupS1 => setupS1 s
  | .setupS2 => setupS2 s
  | .setupS3 => setupS3 s
  | .setupS4 => setupS4 s
  | .setupS5 => setupS5 s
  | .startT0 => startT0 s
  | .startT1 => startT1 s
  | .startT2 => startT2 s
  | .stopP0 => stopP0 s
  | .stopP1 => stopP1 s
  | .readR0 => readR0 s
  | .readR1 => readR1 s

/-- One move of one agent. A command word that reaches this function is presented while an operation is in progress (R169); at IDLE
`nextMove` takes it instead. -/
def agentStep (mv : Move) (s : State) : Result :=
  match mv with
  | .seq => seqStep s
  | .cnt k => cntStep k s
  | .extWrite v => .next (wrPmc v s)
  | .extRead => .next s
  | .codec w => codecStep w s
  | .hwReset => .next (hardwareReset s)
  | .pause => .next s
  | .caller _ => .refused .busy
  | .internal _ => .refused .busy

/-- At most n SEQ steps, until `pc = IDLE`. -/
def finish : Nat → State → Result
  | 0, s => .next s
  | n + 1, s => if s.pc = .idle then .next s else andThen (seqStep s) (finish n)

/-- The operation in progress runs on among the moves of the schedule, until it is at its end or a `pause` is reached. When no move is left,
SEQ goes on alone: six steps are enough for every operation (R12, R115). -/
def runOp : List Move → State → Result
  | [], s => finish 6 { s with schedule := [] }
  | mv :: rest, s =>
    if s.pc = .idle then .next { s with schedule := mv :: rest }
    else if mv = .pause then .next { s with schedule := rest }
    else andThen (agentStep mv s) (runOp rest)

end Sys2Proof.Machine
end

