-- ==== Sys2Proof/Machine/Commands.lean ====
section
/-! DEFINITION. The meanings of the CMD rows: SETUP, START, STOP, READ and the internal RESETM. Each accepts its command (R68, R110),
validates it with no port access, and runs its phases among the schedule's moves. -/

namespace Sys2Proof.Machine

/-- SETUP (R115): no argument, no validation, no response. -/
def execSetup (s : State) : Result :=
  if s.pc = .idle then runOp s.schedule (goto .setupS0 s) else .refused .busy

/-- START (R116): the monitor check, then the event check (R143), then T0. -/
def execStart (mon ev : Word) (s : State) : Result :=
  if s.pc = .idle then
    let t : State := { s with xM := mon, xE := ev }
    match monitorOf mon with
    | none => .next (fail s.cfg.stEinval t)
    | some _ =>
      match eventOf s.cfg ev with
      | none => .next (fail s.cfg.stEinval t)
      | some _ => runOp s.schedule (goto .startT0 t)
  else .refused .busy

/-- STOP (R117). -/
def execStop (mon : Word) (s : State) : Result :=
  if s.pc = .idle then
    let t : State := { s with xM := mon }
    match monitorOf mon with
    | none => .next (fail s.cfg.stEinval t)
    | some _ => runOp s.schedule (goto .stopP0 t)
  else .refused .busy

/-- READ (R130); an invalid monitor is answered with the sentinel, in-band (R133). -/
def execRead (mon : Word) (s : State) : Result :=
  if s.pc = .idle then
    let t : State := { s with xM := mon }
    match monitorOf mon with
    | none => .next { t with value := readSentinel }
    | some _ => runOp s.schedule (goto .readR0 t)
  else .refused .busy

/-- RESETM between its two steps: the schedule's moves up to SEQ's next turn, then step b. A hardware reset abandons it. RESETM has no phase
of its own (R31), so a `pause` cannot hold it (log 11). -/
def resetmTail (m : Monitor) : List Move → State → Result
  | [], s => .next (resetmWrite m { s with schedule := [] })
  | mv :: rest, s =>
    if mv = .seq then .next (resetmWrite m { s with schedule := rest })
    else if mv = .hwReset then .next (hardwareReset { s with schedule := rest })
    else andThen (agentStep mv s) (resetmTail m rest)

/-- RESETM (R114), the internal helper: its two accesses, not atomic against the other agents. It is SEQ's own, so it asks nothing of `pc`
and leaves it. -/
def execResetm (m : Monitor) (s : State) : Result := resetmTail m s.schedule (resetmRead s)

end Sys2Proof.Machine
end

