-- ==== Sys2Proof/Machine/Dispatch.lean ====
section
/-! DEFINITION. The meaning of every instruction. -/

namespace Sys2Proof.Machine

def exec (i : Instr) (s : State) : Host.Outcome State Fault Refusal :=
  match i with
  | .setup => Sys2Proof.Machine.execSetup s
  | .start mon ev => Sys2Proof.Machine.execStart mon ev s
  | .stop mon => Sys2Proof.Machine.execStop mon s
  | .read mon => Sys2Proof.Machine.execRead mon s
  | .resetm m => Sys2Proof.Machine.execResetm m s
  | .mask k => Sys2Proof.Machine.execMask k s
  | .encStart k ev => Sys2Proof.Machine.execEncStart k ev s
  | .encStop k => Sys2Proof.Machine.execEncStop k s
  | .encReset k => Sys2Proof.Machine.execEncReset k s
  | .nibRun k ev => Sys2Proof.Machine.execNibRun k ev s
  | .nibStop k => Sys2Proof.Machine.execNibStop k s
  | .nibReset k => Sys2Proof.Machine.execNibReset k s

end Sys2Proof.Machine
end

