-- ==== Sys2Proof/Machine/Port.lean ====
section
/-! DEFINITION. How a command reaches the block: the command port (R68 to R70), SEQ's internal path for RESETM (R60, R69), and the next move
of the schedule when no operation is in progress. -/

namespace Sys2Proof.Machine

/-- CALLER presents a command word at IDLE: both argument latches are loaded (R68) and the decoded operation runs. An `op` of 4 to 7 is
refused (R70). -/
def presentCaller (w : BitVec 67) (s : State) : Result :=
  if cwOp w = 4 then .refused .internalOp
  else match decodeCmd w with
    | .ok i => exec i { s with xM := cwMon w, xE := cwEv w }
    | .error e => .refused (.undecodable e)

/-- SEQ's internal command path: RESETM only (R60: "RESETM: SEQ only"). -/
def presentInternal (w : BitVec 67) (s : State) : Result :=
  if cwOp w = 4 then
    match decodeCmd w with
    | .ok i => exec i s
    | .error e => .refused (.undecodable e)
  else .refused .internalOp

/-- The next move when no operation is in progress. With none scheduled no agent moves: the block starts no activity of its own
(R160). -/
def nextMove : List Move → State → Result
  | [], s => .next s
  | mv :: rest, s =>
    match mv with
    | .caller w => presentCaller w { s with schedule := rest }
    | .internal w => presentInternal w { s with schedule := rest }
    | .codec w => exec (decodeCodec w) { s with schedule := rest }
    | .seq | .cnt _ | .extWrite _ | .extRead | .hwReset | .pause => agentStep mv { s with schedule := rest }

/-- A control word that lets the nibble n run, or take effect, at slot 0: under CFG_REF, the five flags set, pair 1 stopped, and slot 1 under
the same command where it is a Run (a pair runs as one, R96), else stopped. -/
def tablePmc (n : Nibble) : Word :=
  match nibCmd cfgRef n with
  | .run _ => flagsAll cfgRef ||| stop2 cfgRef 1 ||| place n 1 ||| place n 0
  | .stop | .reset | .reserved => flagsAll cfgRef ||| stop2 cfgRef 1 ||| place cfgRef.nibStop 1 ||| place n 0

/-- A table word placed where the next step takes it up. The opcode table's words are words of CFG_REF (R8), so the configuration is set to
it. A command or request word is put at the head of the schedule, on its own path. A nibble is put into PMC: a Run with CNT's turn next,
a Stop or a Reset as a PMC write by EXT, since storing it is when it acts (log 12). -/
def placeWord (ew : EncWord) (s : State) : State :=
  let t : State := { s with cfg := cfgRef, pc := .idle }
  match ew with
  | .cmd w => { t with schedule := (if cwOp w = 4 then .internal w else .caller w) :: s.schedule }
  | .codec w => { t with schedule := .codec w :: s.schedule }
  | .nib k n =>
    match nibCmd cfgRef n with
    | .run _ => { t with pmc := tablePmc n, schedule := .cnt k :: s.schedule }
    | .stop | .reset | .reserved => { t with schedule := .extWrite (tablePmc n) :: s.schedule }

end Sys2Proof.Machine
end

