-- ==== Sys2Proof/Machine/Step.lean ====
section
/-! DEFINITION. One step of the machine: at IDLE the next move of the schedule, which for a command is the whole operation among the moves
that follow it; otherwise the operation in progress goes on. -/

namespace Sys2Proof.Machine

/-- One step (three outcomes: a next state, a fault, a refusal). -/
def step (s : State) : Host.Outcome State Fault Refusal :=
  if s.pc = .idle then nextMove s.schedule s else runOp s.schedule s

/-- s with a table row's word placed so that the very next step runs it. -/
def State.withFetchWord (s : State) (nbits w : Nat) : State :=
  match tableWord nbits w with
  | some ew => placeWord ew s
  | none => s

end Sys2Proof.Machine
end

