-- ==== Sys2Proof/Safety.lean ====
section
/-! DEFINITION. The terms claims use: the premises the spec names (EXCL, R49), and the invariants of the machine: what holds of the latches while
an operation is in progress, and what a run without outside writes keeps (R100, R118). -/

namespace Sys2Proof.Machine

/-! ## The moves an operation runs among

`n` is the number of port accesses the operation makes (R52); each is one `.seq` move of the schedule. Where the moves run out SEQ goes on
alone, so the empty list meets every premise here. -/

/-- A step of EXT (R49). -/
def Move.ext : Move → Bool
  | .extWrite _ | .extRead => true
  | .seq | .cnt _ | .caller _ | .internal _ | .codec _ | .hwReset | .pause => false

/-- A move that can fall between two port accesses and leaves the operation going on: CNT's, EXT's, and a codec request within its
precondition. The others end the operation (a hardware reset, R160), end the run (a command, R169; an invalid request, R154) or end the
model's step (a pause, log 3). -/
def Move.between (c : Cfg) : Move → Bool
  | .cnt _ | .extWrite _ | .extRead => true
  | .codec w => (decodeCodec w).wf c
  | .seq | .caller _ | .internal _ | .hwReset | .pause => false

/-- No EXT step up to the n-th port access. -/
def noExt : Nat → List Move → Bool
  | 0, _ => true
  | _ + 1, [] => true
  | n + 1, mv :: rest => if mv = .seq then noExt n rest else !mv.ext && noExt (n + 1) rest

/-- The premise EXCL(op) of an operation with n port accesses (R49): "no EXT step lies between the first and the last port access of the
operation". EXT may act before the first access and after the last. -/
def Exclusive (n : Nat) (l : List Move) : Bool := noExt n (l.dropWhile (· != .seq))

/-- Nothing cuts the operation short: up to its n-th port access every other move is one that can fall between two accesses. -/
def Unbroken (c : Cfg) : Nat → List Move → Bool
  | 0, _ => true
  | _ + 1, [] => true
  | n + 1, mv :: rest => if mv = .seq then Unbroken c n rest else mv.between c && Unbroken c (n + 1) rest

/-- The moves after the n-th port access: what the operation leaves scheduled. -/
def afterAccesses : Nat → List Move → List Move
  | 0, l => l
  | _ + 1, [] => []
  | n + 1, mv :: rest => if mv = .seq then afterAccesses n rest else afterAccesses (n + 1) rest

/-- PMC after these moves of EXT, CNT and the codec, from w: the last word EXT wrote (R25). -/
def pmcAfter (w : Word) : List Move → Word
  | [] => w
  | .extWrite v :: rest => pmcAfter v rest
  | .seq :: rest | .cnt _ :: rest | .extRead :: rest | .caller _ :: rest | .internal _ :: rest | .codec _ :: rest | .hwReset :: rest
  | .pause :: rest => pmcAfter w rest

/-- PMC at the operation's first port access: the word p that R118 starts from. -/
def pmcAtFirst (w : Word) (l : List Move) : Word := pmcAfter w (l.takeWhile (· != .seq))

/-- CNT's turns at the slots of pair p before the n-th port access. -/
def turns (p : Monitor) : Nat → List Move → Nat
  | 0, _ => 0
  | _ + 1, [] => 0
  | n + 1, mv :: rest =>
    match mv with
    | .seq => turns p n rest
    | .cnt k => (if pairOf k = p then 1 else 0) + turns p (n + 1) rest
    | .extWrite _ | .extRead | .caller _ | .internal _ | .codec _ | .hwReset | .pause => turns p (n + 1) rest

/-! ## Invariants -/

/-- A move that changes PMC from outside: an EXT write or a hardware reset. -/
def Move.outside : Move → Bool
  | .extWrite _ | .hwReset => true
  | .seq | .cnt _ | .extRead | .caller _ | .internal _ | .codec _ | .pause => false

/-- While an operation is in progress its latches hold the arguments it was accepted with (R110: validation precedes every access). -/
def latchesHold (s : State) : Bool :=
  match s.pc with
  | .startT0 | .startT1 | .startT2 => (monitorOf s.xM).isSome && (eventOf s.cfg s.xE).isSome
  | .stopP0 | .stopP1 | .readR0 | .readR1 => (monitorOf s.xM).isSome
  | .idle | .setupS0 | .setupS1 | .setupS2 | .setupS3 | .setupS4 | .setupS5 => true

/-- The machine's invariant: a well-formed configuration, and latches that hold valid arguments. -/
def Inv (s : State) : Prop := s.cfg.WF ∧ latchesHold s = true

/-- A control word with the five flags set and no pair undefined. -/
def soundWord (c : Cfg) (w : Word) : Bool :=
  flagsSet c w && !undefinedPair c w 0 && !undefinedPair c w 1

/-- A control word with the five flags set and both pairs quiet. -/
def quietWord (c : Cfg) (w : Word) : Bool := flagsSet c w && quiet c w 0 && quiet c w 1

/-- What the read-modify-write in progress holds of PMC, when nobody else writes it (R26, R49): after the read the latch x[W] is PMC; between
START's two writes it still is, outside the monitor's own nibbles; and from SETUP.S2 on every slot is stopped (R115 (iii)). -/
def windowHolds (s : State) : Prop :=
  match s.pc with
  | .startT1 | .stopP1 => s.xW = s.pmc
  | .startT2 => ∀ m, monitorOf s.xM = some m → s.xW &&& ~~~monMask m = s.pmc &&& ~~~monMask m
  | .setupS2 | .setupS4 => quietWord s.cfg s.pmc = true
  | .setupS3 | .setupS5 => quietWord s.cfg s.pmc = true ∧ s.xW = s.pmc
  | .idle | .setupS0 | .setupS1 | .startT0 | .stopP0 | .readR0 | .readR1 => True

/-- A run nobody else writes into: no outside move is scheduled, and once SETUP has completed the flags are set and no pair is undefined. -/
def SoundRun (s : State) : Prop :=
  Inv s ∧ (∀ mv ∈ s.schedule, mv.outside = false) ∧
    (s.setupDone = true → soundWord s.cfg s.pmc = true) ∧ windowHolds s

/-- The phase after a SEQ step: one further in the order of the operation's rule, and IDLE after its last (R31). -/
def Phase.after : Phase → Phase
  | .idle => .idle
  | .setupS0 => .setupS1
  | .setupS1 => .setupS2
  | .setupS2 => .setupS3
  | .setupS3 => .setupS4
  | .setupS4 => .setupS5
  | .setupS5 => .idle
  | .startT0 => .startT1
  | .startT1 => .startT2
  | .startT2 => .idle
  | .stopP0 => .stopP1
  | .stopP1 => .idle
  | .readR0 => .readR1
  | .readR1 => .idle

end Sys2Proof.Machine
end

