-- ==== Sys2Proof/Certificates/Slice0/Obligations.lean ====
section
/-! DEFINITION. The statements about the model, for the provers. Each docstring names the rule of the spec it formalises. `s.cfg` is the
configuration CFG, so a statement for every state with `s.cfg.WF` is one for every well-formed configuration (R7). A statement with
`s.schedule = []` is about an operation that nothing interrupts; one with `Exclusive n s.schedule` is under the premise EXCL (R49) of an operation
with n port accesses, `Unbroken` says that nothing ends it early, and `pmcAtFirst` is PMC at its first access. -/

open Sys2Proof Sys2Proof.Machine

/-! ## Encoding -/

/-- R62, R68, R69, R72: decoding the word of a well-formed instruction gives the instruction back, every operand at every value, under
every well-formed configuration. -/
def Obligations.DecodeEncodeAgree : Prop :=
  ∀ (c : Cfg) (i : Instr), c.WF → i.wf c = true → ∃ w, encode c i = some w ∧ decode c w = .ok i

/-- R62: "a nibble value decodes to at most one command and at most one event": the command a nibble decodes to has that nibble as
its word. -/
def Obligations.NibbleDecodesToOneCommand : Prop :=
  ∀ (c : Cfg) (k : Slot) (n : Nibble) (i : Instr), decodeNib c k n = .ok i → encode c i = some (.nib k n)

/-- Words written out from R68, R69, R72 and, under CFG_REF, R62, in the host's numbering of the opcode table, which is the model's choice
(log 12): twelve decode, the reserved op does not. -/
def Obligations.WrittenOutWordsDecode : Prop :=
  decodeTableWord 72 0x00000000000000000 = some .setup ∧
  decodeTableWord 72 0x1000000010000000D = some (.start 1 13) ∧
  decodeTableWord 72 0x280000000DEADBEEF = some (.stop 0x80000000) ∧
  decodeTableWord 72 0x3FFFFFFFF00000000 = some (.read 0xFFFFFFFF) ∧
  decodeTableWord 72 0x40000000100000000 = some (.resetm 1) ∧
  decodeTableWord 72 0x50000000000000000 = none ∧
  decodeTableWord 8 0x2F = some (.mask 2) ∧
  decodeTableWord 8 0x7D = some (.encStart 3 13) ∧
  decodeTableWord 8 0x90 = some (.encStop 1) ∧
  decodeTableWord 8 0xF0 = some (.encReset 3) ∧
  decodeTableWord 4 0x5 = some (.nibRun 0 5) ∧
  decodeTableWord 4 0xE = some (.nibStop 0) ∧
  decodeTableWord 4 0xF = some (.nibReset 0)

/-- R70: a command word with `op` = 5, 6 or 7, or with `op` = 4 presented by CALLER, is refused; the fields an operation does not use are
ignored, at any value. -/
def Obligations.ReservedOpsRefused : Prop :=
  (∀ (s : State) (w : BitVec 67) (rest : List Move), s.pc = .idle → s.schedule = .caller w :: rest →
    (cwOp w = 4 → step s = .refused .internalOp) ∧
    (5 ≤ (cwOp w).toNat → step s = .refused (.undecodable (.reservedOp (cwOp w))))) ∧
  (∀ (mon ev : Word) (m : Monitor), decodeCmd (cwOf 0 mon ev) = .ok .setup ∧ decodeCmd (cwOf 2 mon ev) = .ok (.stop mon) ∧
    decodeCmd (cwOf 3 mon ev) = .ok (.read mon) ∧ decodeCmd (cwOf 4 (BitVec.ofNat 32 m.val) ev) = .ok (.resetm m))

/-- A step runs the decoded instruction: a command word with both argument latches loaded from it (R68), RESETM's word on SEQ's internal
path, a codec request word, and the command of a nibble at CNT's turn (R90); an idle slot is not touched (R93); at a reserved nibble the turn
is one HAVOC of its pair (R94, R100), which is undefined. That an operation runs whole in a step, and a
turn of CNT is one slot's, is the model's form (logs 3, 9, 11). -/
def Obligations.StepRunsDecoded : Prop :=
  ∀ (s : State) (rest : List Move), s.pc = .idle →
    (∀ w i, s.schedule = .caller w :: rest → cwOp w ≠ 4 → decodeCmd w = .ok i →
      step s = exec i { s with schedule := rest, xM := cwMon w, xE := cwEv w }) ∧
    (∀ w i, s.schedule = .internal w :: rest → cwOp w = 4 → decodeCmd w = .ok i →
      step s = exec i { s with schedule := rest }) ∧
    (∀ w, s.schedule = .codec w :: rest → step s = exec (decodeCodec w) { s with schedule := rest }) ∧
    (∀ k i, s.schedule = .cnt k :: rest → decodeNib s.cfg k (nib s.pmc k) = .ok i → i ≠ .nibReset k →
      step s = exec i { s with schedule := rest }) ∧
    (∀ k, s.schedule = .cnt k :: rest → decodeNib s.cfg k (nib s.pmc k) = .ok (.nibReset k) →
      step s = .next { s with schedule := rest }) ∧
    (∀ k e, s.schedule = .cnt k :: rest → decodeNib s.cfg k (nib s.pmc k) = .error e →
      undefinedPair s.cfg s.pmc (pairOf k) = true ∧ ∃ pm : Vector Word 4,
      step s = .next { s with schedule := rest, pm := pm, drawn := s.drawn + 2 } ∧
      pm[lowSlot (pairOf k)] = Config.freeWord s.drawn ∧ pm[highSlot (pairOf k)] = Config.freeWord (s.drawn + 1) ∧
      ∀ j : Slot, pairOf j ≠ pairOf k → pm[j] = s.pm[j])

/-- A codec request word means the same inside an operation as between operations (R80). -/
def Obligations.CodecCallAnywhere : Prop :=
  ∀ (s : State) (w : BitVec 8), agentStep (.codec w) s = exec (decodeCodec w) s

/-! ## The Register Codec -/

/-- R81, R83, R84 (and that the functions read no state, R80): the answers of MASK, ENC_STOP and ENC_RESET, and that they change
nothing else. -/
def Obligations.CodecAnswers : Prop :=
  ∀ (s : State) (k : Slot),
    exec (.mask k) s = .next { s with codecOut := 0x0000000F#32 <<< (4 * k.val) } ∧
    exec (.encStop k) s = .next { s with codecOut := s.cfg.nibStop.setWidth 32 <<< (4 * k.val) } ∧
    exec (.encReset k) s = .next { s with codecOut := s.cfg.nibReset.setWidth 32 <<< (4 * k.val) }

/-- R82: ENC_START of a valid event answers `zext_32(RUN(e)) << (4·k)` and changes nothing else; with an event outside the valid range it
answers no value: the call is refused (R154, U10). -/
def Obligations.EncStartAnswers : Prop :=
  ∀ (s : State) (k : Slot) (e : Event), s.cfg.WF →
    (s.cfg.evMin ≤ e.toNat → (e.toNat : Int) ≤ s.cfg.evMax → ∃ n, s.cfg.run[e.toNat]? = some n ∧
      exec (.encStart k e) s = .next { s with codecOut := n.setWidth 32 <<< (4 * k.val) }) ∧
    ((e.toNat : Int) < s.cfg.evMin ∨ s.cfg.evMax < e.toNat → exec (.encStart k e) s = .refused .codecPrecondition)

/-- R86, laws L1 to L7. The first clause says L1, L4, L5, L7 and the flags' part of L3 of each of ENC_START, ENC_STOP and ENC_RESET: `V` is its
word and `n` the nibble value it encodes. The others are L2, L3 of MASK, and L6. -/
def Obligations.CodecLaws : Prop :=
  (∀ (c : Cfg) (k : Slot) (V : Word) (n : Nibble),
    ((∃ e, encStart c k e = some V ∧ runOf c e = some n) ∨ (V = encStop c k ∧ n = c.nibStop) ∨ (V = encReset c k ∧ n = c.nibReset)) →
    V &&& ~~~mask k = 0 ∧ V &&& 0xFFFF0000#32 = 0 ∧ V.toNat = n.toNat * 2 ^ (4 * k.val) ∧
    ∀ w : Word, nib ((w &&& ~~~mask k) ||| V) k = n ∧ ((w &&& ~~~mask k) ||| V) &&& ~~~mask k = w &&& ~~~mask k ∧
      nib (w ||| V) k = nib w k ||| n) ∧
  (∀ k t : Slot, k ≠ t → mask k &&& mask t = 0) ∧
  (∀ k : Slot, mask k &&& 0xFFFF0000#32 = 0) ∧
  (∀ (c : Cfg) (k : Slot) (e e' : Event) (v : Word), c.WF → encStart c k e = some v →
    (encStart c k e' = some v → e = e') ∧ v ≠ encStop c k ∧ v ≠ encReset c k ∧ encStop c k ≠ encReset c k)

/-! ## The control register and its slots -/

/-- R95: the effect of a PMC write, by EXT, where nothing else happens in that step, and by SEQ, whose writes have the same effect on PMC
and the counters. -/
def Obligations.PmcWriteEffect : Prop :=
  (∀ (s : State) (v : Word), ∃ pm : Vector Word 4,
    (∀ k : Slot, pm[k] = if nib v k = s.cfg.nibReset then 0 else s.pm[k]) ∧
    agentStep (.extWrite v) s = .next { s with pmc := v, pm := pm }) ∧
  (∀ (s t : State) (v : Word), seqStep s = .next t → t.trace = .wrPmc v :: s.trace →
    t.pmc = v ∧ ∀ k : Slot, t.pm[k] = if nib v k = s.cfg.nibReset then 0 else s.pm[k])

/-- R45: `WrPMC(v)` is idempotent, and R25: a read returns the most recent write. -/
def Obligations.PmcWriteIdempotent : Prop :=
  ∀ (s : State) (v u : Word), wrPmc v (wrPmc v s) = wrPmc v s ∧ rdPmc (wrPmc v (wrPmc u s)) = v

/-- R42: the memory primitives on the register space: five registers at addresses 0 to 4, width 4 only, writes at address 0 only. -/
def Obligations.RegisterSpace : Prop :=
  ∀ (s : State) (a n : Nat) (v : Word),
    memRead s 0 4 = some s.pmc ∧
    (∀ k : Slot, memRead s (1 + k.val) 4 = some s.pm[k]) ∧
    (n ≠ 4 ∨ 4 < a → memRead s a n = none) ∧
    memWrite s 0 4 v = some (wrPmc v s) ∧
    (n ≠ 4 ∨ a ≠ 0 → memWrite s a n v = none)

/-- R91, R97: NIB_RUN(e) where its pair counts e is one COUNT step: the pair's count plus 1 modulo 2^64, the other pair and everything else
unchanged. That one obeying of the command, at either slot, is one COUNT of the whole pair is the model's choice (log 9). -/
def Obligations.RunCounts : Prop :=
  ∀ (s : State) (k : Slot) (e : Event), counting s.cfg s.pmc (pairOf k) e = true → ∃ pm : Vector Word 4,
    exec (.nibRun k e) s = .next { s with pm := pm } ∧
    pm[highSlot (pairOf k)] ++ pm[lowSlot (pairOf k)] = count s (pairOf k) + 1 ∧
    ∀ j : Slot, pairOf j ≠ pairOf k → pm[j] = s.pm[j]

/-- R98: in a COUNT step the low half wraps from 0xFFFF_FFFF to 0 and carries into the high half; a count of all ones becomes 0, silently. -/
def Obligations.CountCarries : Prop :=
  ∀ (s : State) (p : Monitor),
    (countPair p s).pm[lowSlot p] = s.pm[lowSlot p] + 1 ∧
    (countPair p s).pm[highSlot p] =
      (if s.pm[lowSlot p] = 0xFFFFFFFF#32 then s.pm[highSlot p] + 1 else s.pm[highSlot p]) ∧
    (count s p = 0xFFFFFFFFFFFFFFFF#64 → count (countPair p s) p = 0)

/-- R99, R100: NIB_RUN in an undefined pair is a HAVOC step: both counters of the pair take free words (`Config.freeWord`, whatever its
values), everything else is unchanged. -/
def Obligations.RunInUndefinedPairHavocs : Prop :=
  ∀ (s : State) (k : Slot) (e : Event), undefinedPair s.cfg s.pmc (pairOf k) = true → ∃ pm : Vector Word 4,
    exec (.nibRun k e) s = .next { s with pm := pm, drawn := s.drawn + 2 } ∧
    pm[lowSlot (pairOf k)] = Config.freeWord s.drawn ∧ pm[highSlot (pairOf k)] = Config.freeWord (s.drawn + 1) ∧
    ∀ j : Slot, pairOf j ≠ pairOf k → pm[j] = s.pm[j]

/-- NIB_RUN(e) put to a pair that neither counts e nor is undefined: no step of the counters is enabled and nothing changes. The stored word
never gives the counters this command in such a pair. The model's choice (log 9). -/
def Obligations.RunElsewhereChangesNothing : Prop :=
  ∀ (s : State) (k : Slot) (e : Event), counting s.cfg s.pmc (pairOf k) e = false → undefinedPair s.cfg s.pmc (pairOf k) = false →
    exec (.nibRun k e) s = .next s

/-- R92: a stopped slot is frozen; R93: the reset command zeroes its counter and nothing else. -/
def Obligations.StopHoldsResetZeroes : Prop :=
  ∀ (s : State) (k : Slot), exec (.nibStop k) s = .next s ∧
    ∃ pm : Vector Word 4, exec (.nibReset k) s = .next { s with pm := pm } ∧ pm[k] = 0 ∧ ∀ j : Slot, j ≠ k → pm[j] = s.pm[j]

/-- R95 by way of R93: a PMC write that stores `NIB_RESET` in slot k alone is the store followed by the meaning of that command. -/
def Obligations.PmcWriteRunsResetCommand : Prop :=
  ∀ (s : State) (v : Word) (k : Slot), nib v k = s.cfg.nibReset → (∀ j : Slot, j ≠ k → nib v j ≠ s.cfg.nibReset) →
    agentStep (.extWrite v) s = exec (.nibReset k) { s with pmc := v }

/-- R102: exactly one of `quiet(p)`, `undefined(p)`, `exists e, counting(p, e)` holds. -/
def Obligations.PairStatusTrichotomy : Prop :=
  ∀ (c : Cfg) (w : Word) (p : Monitor),
    (quiet c w p = true ∨ undefinedPair c w p = true ∨ ∃ e, counting c w p e = true) ∧
    ¬ (quiet c w p = true ∧ undefinedPair c w p = true) ∧
    ¬ (quiet c w p = true ∧ ∃ e, counting c w p e = true) ∧
    ¬ (undefinedPair c w p = true ∧ ∃ e, counting c w p e = true)

/-- R103: how a counter can change, for every move of every agent; and a quiet pair's counters do not move at CNT's turns. -/
def Obligations.CounterFrame : Prop :=
  (∀ (mv : Move) (s t : State) (k : Slot), agentStep mv s = .next t →
    t.pm[k] = s.pm[k] ∨
    (t.pm[k] = 0 ∧ nib t.pmc k = s.cfg.nibReset ∧
      (mv = .extWrite t.pmc ∨ (mv = .seq ∧ t.trace = .wrPmc t.pmc :: s.trace))) ∨
    (∃ j e, mv = .cnt j ∧ pairOf j = pairOf k ∧ counting s.cfg s.pmc (pairOf k) e = true ∧
      count t (pairOf k) = count s (pairOf k) + 1) ∨
    (∃ j, mv = .cnt j ∧ pairOf j = pairOf k ∧ undefinedPair s.cfg s.pmc (pairOf k) = true) ∨
    mv = .hwReset) ∧
  (∀ (s : State) (k : Slot), quiet s.cfg s.pmc (pairOf k) = true → agentStep (.cnt k) s = .next s)

/-- R101, R24: the flags DMT, SPRIV, SDBG and the reserved bits have no effect on any step of the counters: changing any PMC bit of 31:16 but
the two chain flags leaves every pair's status as it is, and CNT's step changes the counters the same way. -/
def Obligations.UninterpretedBitsHaveNoEffect : Prop :=
  ∀ (s : State) (b : Fin 32), 16 ≤ b.val → b ≠ s.cfg.fCh01 → b ≠ s.cfg.fCh23 →
    (∀ p e, counting s.cfg (s.pmc ^^^ bitWord b) p e = counting s.cfg s.pmc p e ∧
      undefinedPair s.cfg (s.pmc ^^^ bitWord b) p = undefinedPair s.cfg s.pmc p ∧
      quiet s.cfg (s.pmc ^^^ bitWord b) p = quiet s.cfg s.pmc p) ∧
    (∀ k t, agentStep (.cnt k) s = .next t →
      agentStep (.cnt k) { s with pmc := s.pmc ^^^ bitWord b } = .next { t with pmc := t.pmc ^^^ bitWord b })

/-! ## The Monitor Controller and the read-sequencer: what each operation leaves -/

/-- R115: SETUP, uninterrupted: the three words written, the end state, its six accesses; `STATUS`, `VALUE`, the argument latches and everything
else unchanged. -/
def Obligations.SetupEndState : Prop :=
  ∀ s : State, s.cfg.WF → s.pc = .idle → s.schedule = [] →
    let w1 := (s.pmc &&& ~~~allMask) ||| stopAll s.cfg ||| flagsAll s.cfg
    let w2 := (w1 &&& ~~~monMask 0) ||| reset2 s.cfg 0
    let w3 := (w2 &&& ~~~monMask 1) ||| reset2 s.cfg 1
    w3 = (s.pmc &&& rsvdMask s.cfg) ||| flagsAll s.cfg ||| reset2 s.cfg 0 ||| reset2 s.cfg 1 ∧
    exec .setup s = .next { s with
      pmc := w3, pm := #v[0, 0, 0, 0], xW := w2, setupDone := true
      trace := .wrPmc w3 :: .rdPmc w2 :: .wrPmc w2 :: .rdPmc w1 :: .wrPmc w1 :: .rdPmc s.pmc :: s.trace }

/-- R116: START with valid arguments, uninterrupted: the monitor's two nibbles hold RUN(e), its counters are zero, `STATUS` is 0; one read and two
writes, both from the word read; every other bit of PMC and, but for a carried-over `NIB_RESET` (R95), every other counter as before;
everything else unchanged. -/
def Obligations.StartEndState : Prop :=
  ∀ (s : State) (m : Monitor) (ev : Word), s.cfg.WF → s.pc = .idle → s.schedule = [] →
    s.cfg.evMin ≤ ev.toInt → ev.toInt ≤ s.cfg.evMax →
    ∃ (n : Nibble) (pm : Vector Word 4), s.cfg.run[ev.toInt.toNat]? = some n ∧
      pm[lowSlot m] = 0 ∧ pm[highSlot m] = 0 ∧
      (∀ k : Slot, pairOf k ≠ m → pm[k] = if nib s.pmc k = s.cfg.nibReset then 0 else s.pm[k]) ∧
      let w1 := (s.pmc &&& ~~~monMask m) ||| reset2 s.cfg m
      let w2 := (s.pmc &&& ~~~monMask m) ||| (place n (lowSlot m) ||| place n (highSlot m))
      exec (.start (BitVec.ofNat 32 m.val) ev) s = .next { s with
        pmc := w2, pm := pm, xM := BitVec.ofNat 32 m.val, xE := ev, xW := s.pmc, status := 0
        trace := .wrPmc w2 :: .wrPmc w1 :: .rdPmc s.pmc :: s.trace }

/-- R117, R95: STOP with a valid monitor, uninterrupted: both nibbles hold `NIB_STOP`, the monitor's counters stay, `STATUS` is 0; one read and one
write; a counter of the other monitor is kept, but for one whose carried-over `NIB_RESET` zeroes it again. -/
def Obligations.StopEndState : Prop :=
  ∀ (s : State) (m : Monitor), s.cfg.WF → s.pc = .idle → s.schedule = [] →
    ∃ pm : Vector Word 4,
      (∀ k : Slot, pm[k] = if pairOf k ≠ m ∧ nib s.pmc k = s.cfg.nibReset then 0 else s.pm[k]) ∧
      let w := (s.pmc &&& ~~~monMask m) ||| stop2 s.cfg m
      exec (.stop (BitVec.ofNat 32 m.val)) s = .next { s with
        pmc := w, pm := pm, xM := BitVec.ofNat 32 m.val, xW := s.pmc, status := 0
        trace := .wrPmc w :: .rdPmc s.pmc :: s.trace }

/-- R130, R132: READ with a valid monitor, uninterrupted: the high half first, then the low half, `VALUE = (high << 32) | low`; PMC, the counters,
`STATUS` and everything else unchanged. -/
def Obligations.ReadEndState : Prop :=
  ∀ (s : State) (m : Monitor), s.pc = .idle → s.schedule = [] →
    exec (.read (BitVec.ofNat 32 m.val)) s = .next { s with
      xM := BitVec.ofNat 32 m.val, xHI := s.pm[highSlot m], xLO := s.pm[lowSlot m]
      value := (s.pm[highSlot m].setWidth 64 <<< 32) ||| s.pm[lowSlot m].setWidth 64
      trace := .rdPm (lowSlot m) s.pm[lowSlot m] :: .rdPm (highSlot m) s.pm[highSlot m] :: s.trace } ∧
    (s.pm[highSlot m].setWidth 64 <<< 32) ||| s.pm[lowSlot m].setWidth 64 = count s m

/-- R114: RESETM, uninterrupted: both nibbles hold `NIB_RESET`, both counters are zero, the pre-reset word stays in x[W], everything else
unchanged. That it runs as an instruction of its own, at any phase, and leaves `pc`, the argument latches, `STATUS` and `VALUE` is the model's
choice (log 11). -/
def Obligations.ResetmEndState : Prop :=
  ∀ (s : State) (m : Monitor), s.cfg.WF → s.schedule = [] →
    ∃ pm : Vector Word 4,
      (∀ k : Slot, pm[k] = if pairOf k = m ∨ nib s.pmc k = s.cfg.nibReset then 0 else s.pm[k]) ∧
      let w := (s.pmc &&& ~~~monMask m) ||| reset2 s.cfg m
      exec (.resetm m) s = .next { s with
        pmc := w, pm := pm, xW := s.pmc, trace := .wrPmc w :: .rdPmc s.pmc :: s.trace }

/-- R144: for a monitor other than 0 and 1, or an event outside the valid range, START answers `ST_EINVAL` in the step that accepts it, makes no
port access and leaves PMC and the counters unchanged, whatever is scheduled; STOP likewise for the monitor; READ answers the sentinel. -/
def Obligations.InvalidArgumentsFail : Prop :=
  ∀ (s : State) (mon ev : Word), s.pc = .idle →
    ((mon.toInt ≠ 0 ∧ mon.toInt ≠ 1) ∨ ev.toInt < s.cfg.evMin ∨ s.cfg.evMax < ev.toInt →
      exec (.start mon ev) s = .next { s with xM := mon, xE := ev, status := s.cfg.stEinval }) ∧
    (mon.toInt ≠ 0 → mon.toInt ≠ 1 → exec (.stop mon) s = .next { s with xM := mon, status := s.cfg.stEinval }) ∧
    (mon.toInt ≠ 0 → mon.toInt ≠ 1 → exec (.read mon) s = .next { s with xM := mon, value := 0xFFFFFFFFFFFFFFFF#64 })

/-- R133, R167: READ of an invalid monitor answers the all-ones sentinel regardless of prior state, and so does READ of a valid one whose halves
both hold all ones: the value is not reserved. -/
def Obligations.SentinelIsAmbiguous : Prop :=
  ∀ s : State, s.pc = .idle →
    (∀ mon : Word, mon.toInt ≠ 0 → mon.toInt ≠ 1 → exec (.read mon) s = .next { s with xM := mon, value := BitVec.allOnes 64 }) ∧
    (∀ m : Monitor, s.schedule = [] → s.pm[highSlot m] = 0xFFFFFFFF#32 → s.pm[lowSlot m] = 0xFFFFFFFF#32 →
      ∃ t, exec (.read (BitVec.ofNat 32 m.val)) s = .next t ∧ t.value = BitVec.allOnes 64)

/-- R169: a command presented while an operation is in progress is refused. -/
def Obligations.BusyCommandsRefused : Prop :=
  ∀ (s : State) (mon ev : Word), s.pc ≠ .idle →
    exec .setup s = .refused .busy ∧ exec (.start mon ev) s = .refused .busy ∧
    exec (.stop mon) s = .refused .busy ∧ exec (.read mon) s = .refused .busy ∧
    ∀ (w : BitVec 67) (rest : List Move), s.schedule = .caller w :: rest → step s = .refused .busy

/-- R118, R96: what the words left by the operations mean: SETUP leaves both pairs quiet and chained; START leaves its pair counting the event exactly
when it is chained; STOP and RESETM leave theirs quiet; and the other pair's status is untouched. -/
def Obligations.EndWordsMeaning : Prop :=
  ∀ (c : Cfg) (w : Word) (m p : Monitor) (e : Event) (n : Nibble), c.WF → runOf c e = some n →
    let started := (w &&& ~~~monMask m) ||| (place n (lowSlot m) ||| place n (highSlot m))
    let stopped := (w &&& ~~~monMask m) ||| stop2 c m
    let zeroed := (w &&& ~~~monMask m) ||| reset2 c m
    let ready := (w &&& rsvdMask c) ||| flagsAll c ||| reset2 c 0 ||| reset2 c 1
    quiet c ready p = true ∧ chained c ready p = true ∧
    counting c started m e = chained c w m ∧ quiet c stopped m = true ∧ quiet c zeroed m = true ∧
    (p ≠ m → ∀ x ∈ [started, stopped, zeroed], quiet c x p = quiet c w p ∧ undefinedPair c x p = undefinedPair c w p ∧
      ∀ f, counting c x p f = counting c w p f)

/-- R119: SETUP twice leaves the PMC and the counters of SETUP; STOP twice those of STOP; START twice the PMC of START. -/
def Obligations.RepeatedOperations : Prop :=
  ∀ (s : State) (m : Monitor) (ev : Word), s.cfg.WF → s.pc = .idle → s.schedule = [] →
    s.cfg.evMin ≤ ev.toInt → ev.toInt ≤ s.cfg.evMax →
    (∃ t u, exec .setup s = .next t ∧ exec .setup t = .next u ∧ u.pmc = t.pmc ∧ u.pm = t.pm) ∧
    (∃ t u, exec (.stop (BitVec.ofNat 32 m.val)) s = .next t ∧ exec (.stop (BitVec.ofNat 32 m.val)) t = .next u ∧
      u.pmc = t.pmc ∧ u.pm = t.pm) ∧
    (∃ t u, exec (.start (BitVec.ofNat 32 m.val) ev) s = .next t ∧ exec (.start (BitVec.ofNat 32 m.val) ev) t = .next u ∧
      u.pmc = t.pmc)

/-! ## Interleaving -/

/-- R49, R165: what EXT writes between the read and the write of PMC is lost, among any moves of EXT, CNT and the codec: the word at the end is
made from the word read. STOP; RESETM; START, both of whose windows are made from the one word read; SETUP, with its three windows `l1`, `l2`,
`l3`, where what EXT writes before the first access or between two windows (`b1`, `b2`) is not lost. -/
def Obligations.InterleavedWriteLost : Prop :=
  ∀ (s : State) (m : Monitor) (ev : Word) (a l1 l2 l3 b1 b2 rest : List Move), s.cfg.WF → s.pc = .idle →
    s.cfg.evMin ≤ ev.toInt → ev.toInt ≤ s.cfg.evMax → (∀ mv ∈ a ++ l1 ++ l2 ++ l3 ++ b1 ++ b2, mv.between s.cfg = true) →
    let p := pmcAfter s.pmc a
    (s.schedule = a ++ .seq :: (l1 ++ .seq :: rest) → ∃ t, exec (.stop (BitVec.ofNat 32 m.val)) s = .next t ∧
      t.pc = .idle ∧ t.schedule = rest ∧ t.pmc = (p &&& ~~~monMask m) ||| stop2 s.cfg m) ∧
    (s.schedule = l1 ++ .seq :: rest → ∃ t, exec (.resetm m) s = .next t ∧
      t.schedule = rest ∧ t.pmc = (s.pmc &&& ~~~monMask m) ||| reset2 s.cfg m) ∧
    (s.schedule = a ++ .seq :: (l1 ++ .seq :: (l2 ++ .seq :: rest)) → ∃ t n, s.cfg.run[ev.toInt.toNat]? = some n ∧
      exec (.start (BitVec.ofNat 32 m.val) ev) s = .next t ∧ t.pc = .idle ∧ t.schedule = rest ∧
      t.pmc = (p &&& ~~~monMask m) ||| (place n (lowSlot m) ||| place n (highSlot m))) ∧
    (s.schedule = a ++ .seq :: (l1 ++ .seq :: (b1 ++ .seq :: (l2 ++ .seq :: (b2 ++ .seq :: (l3 ++ .seq :: rest))))) →
      let w1 := (p &&& ~~~allMask) ||| stopAll s.cfg ||| flagsAll s.cfg
      let w2 := (pmcAfter w1 b1 &&& ~~~monMask 0) ||| reset2 s.cfg 0
      ∃ t, exec .setup s = .next t ∧ t.pc = .idle ∧ t.schedule = rest ∧
        t.pmc = (pmcAfter w2 b2 &&& ~~~monMask 1) ||| reset2 s.cfg 1)

/-- R26 (i) to (iii): what SEQ writes keeps of the word it fetched: outside the monitor's nibbles every bit, in SETUP's first write the reserved bits,
with the five flags set; and no other SEQ step writes PMC. -/
def Obligations.SequencerWritesPreserve : Prop :=
  ∀ s t : State, s.cfg.WF → seqStep s = .next t →
    (s.pc = .startT1 ∨ s.pc = .startT2 ∨ s.pc = .stopP1 → ∀ m, monitorOf s.xM = some m →
      t.pmc &&& ~~~monMask m = s.xW &&& ~~~monMask m) ∧
    (s.pc = .setupS3 → t.pmc &&& ~~~monMask 0 = s.xW &&& ~~~monMask 0) ∧
    (s.pc = .setupS5 → t.pmc &&& ~~~monMask 1 = s.xW &&& ~~~monMask 1) ∧
    (s.pc = .setupS1 → t.pmc &&& rsvdMask s.cfg = s.xW &&& rsvdMask s.cfg ∧ flagsSet s.cfg t.pmc = true) ∧
    (s.pc = .idle ∨ s.pc = .setupS0 ∨ s.pc = .setupS2 ∨ s.pc = .setupS4 ∨ s.pc = .startT0 ∨ s.pc = .stopP0 ∨
      s.pc = .readR0 ∨ s.pc = .readR1 → t.pmc = s.pmc)

/-- R31, R11: `pc` advances by one phase per SEQ step, in the listed order, with no branch, and each step makes one port access. -/
def Obligations.SequencerAdvances : Prop :=
  ∀ s t : State, seqStep s = .next t → t.pc = s.pc.after ∧ (s.pc ≠ .idle → ∃ a, t.trace = a :: s.trace)

/-- R134: READ of a counting monitor with n COUNT steps between its two reads. -/
def Obligations.ReadCarryRace : Prop :=
  ∀ (s : State) (m : Monitor) (e : Event) (n : Nat) (rest : List Move), s.pc = .idle →
    counting s.cfg s.pmc m e = true →
    s.schedule = .seq :: (List.replicate n (.cnt (lowSlot m)) ++ .seq :: rest) →
    ∃ t, exec (.read (BitVec.ofNat 32 m.val)) s = .next t ∧ t.pc = .idle ∧ t.pmc = s.pmc ∧
      count t m = count s m + BitVec.ofNat 64 n ∧
      t.value = (count s m).extractLsb' 32 32 ++ (count t m).extractLsb' 0 32 ∧
      t.value = count t m -
        (((count t m).extractLsb' 32 32 - (count s m).extractLsb' 32 32).setWidth 64 <<< 32) ∧
      ((count t m).extractLsb' 32 32 = (count s m).extractLsb' 32 32 → t.value = count t m) ∧
      (n < 2 ^ 32 → (count s m).toNat + n < 2 ^ 64 →
        t.value.toNat = (count t m).toNat ∨
          (t.value.toNat + 2 ^ 32 = (count t m).toNat ∧ t.value.toNat < (count s m).toNat))

/-- R136 (a): READ of a monitor that is quiet at R0, under EXCL, answers its count exactly; and where EXT stays out before R0 too, that is the
count it had when the command was accepted. -/
def Obligations.QuietReadExact : Prop :=
  ∀ (s : State) (m : Monitor), s.cfg.WF → s.pc = .idle → Unbroken s.cfg 2 s.schedule = true →
    (Exclusive 2 s.schedule = true → quiet s.cfg (pmcAtFirst s.pmc s.schedule) m = true →
      ∃ t, exec (.read (BitVec.ofNat 32 m.val)) s = .next t ∧ t.pc = .idle ∧ t.schedule = afterAccesses 2 s.schedule ∧
        t.value = count t m ∧ t.pmc = pmcAtFirst s.pmc s.schedule ∧ t.status = s.status) ∧
    (noExt 2 s.schedule = true → quiet s.cfg s.pmc m = true →
      ∃ t, exec (.read (BitVec.ofNat 32 m.val)) s = .next t ∧ t.value = count s m ∧ count t m = count s m)

/-- R118, first item: SETUP under EXCL, whatever CNT does meanwhile and whatever is scheduled after it. -/
def Obligations.SetupUnderExcl : Prop :=
  ∀ s : State, s.cfg.WF → s.pc = .idle → Exclusive 6 s.schedule = true → Unbroken s.cfg 6 s.schedule = true →
    ∃ t, exec .setup s = .next t ∧ t.pc = .idle ∧ t.schedule = afterAccesses 6 s.schedule ∧ t.setupDone = true ∧
      t.pmc = (pmcAtFirst s.pmc s.schedule &&& rsvdMask s.cfg) ||| flagsAll s.cfg ||| reset2 s.cfg 0 ||| reset2 s.cfg 1 ∧
      (∀ k : Slot, t.pm[k] = 0) ∧ (∀ p, quiet s.cfg t.pmc p = true ∧ chained s.cfg t.pmc p = true) ∧
      t.status = s.status ∧ t.value = s.value

/-- R118, second item: START under EXCL: the end word, `STATUS`, where the monitor is chained it counts from zero; and the other monitor,
where it counts and EXT stays out before T0 too, counts on: one for each of CNT's turns (R116 (ii)). -/
def Obligations.StartUnderExcl : Prop :=
  ∀ (s : State) (m : Monitor) (ev : Word), s.cfg.WF → s.pc = .idle → Exclusive 3 s.schedule = true → Unbroken s.cfg 3 s.schedule = true →
    s.cfg.evMin ≤ ev.toInt → ev.toInt ≤ s.cfg.evMax →
    let w := pmcAtFirst s.pmc s.schedule
    ∃ t n, exec (.start (BitVec.ofNat 32 m.val) ev) s = .next t ∧ s.cfg.run[ev.toInt.toNat]? = some n ∧
      t.pc = .idle ∧ t.schedule = afterAccesses 3 s.schedule ∧ t.status = 0 ∧ count t m = 0 ∧
      t.pmc = (w &&& ~~~monMask m) ||| (place n (lowSlot m) ||| place n (highSlot m)) ∧
      (chained s.cfg w m = true → counting s.cfg t.pmc m (ev.setWidth 4) = true) ∧ t.value = s.value ∧
      ∀ p e, p ≠ m → noExt 3 s.schedule = true → counting s.cfg s.pmc p e = true →
        count t p = count s p + BitVec.ofNat 64 (turns p 3 s.schedule)

/-- R118, third and fourth items: STOP and RESETM under EXCL. Where EXT stays out before P0 too: every count of CNT's turns up to P1 is in
STOP's monitor and in the other, a quiet monitor's count is as before; and P1 itself leaves its monitor's count. RESETM as an instruction of
its own is the model's choice (log 11). -/
def Obligations.StopAndResetmUnderExcl : Prop :=
  ∀ (s : State) (m : Monitor), s.cfg.WF →
    (s.pc = .idle → Exclusive 2 s.schedule = true → Unbroken s.cfg 2 s.schedule = true →
      ∃ t, exec (.stop (BitVec.ofNat 32 m.val)) s = .next t ∧ t.pc = .idle ∧ t.schedule = afterAccesses 2 s.schedule ∧ t.status = 0 ∧
        t.pmc = (pmcAtFirst s.pmc s.schedule &&& ~~~monMask m) ||| stop2 s.cfg m ∧ quiet s.cfg t.pmc m = true ∧ t.value = s.value ∧
        (noExt 2 s.schedule = true → ∀ p e, counting s.cfg s.pmc p e = true →
          count t p = count s p + BitVec.ofNat 64 (turns p 2 s.schedule)) ∧
        (noExt 2 s.schedule = true → quiet s.cfg s.pmc m = true → count t m = count s m)) ∧
    (∀ t, s.pc = .stopP1 → monitorOf s.xM = some m → seqStep s = .next t → count t m = count s m) ∧
    (noExt 1 s.schedule = true → Unbroken s.cfg 1 s.schedule = true →
      ∃ t, exec (.resetm m) s = .next t ∧ t.schedule = afterAccesses 1 s.schedule ∧
        t.pmc = (s.pmc &&& ~~~monMask m) ||| reset2 s.cfg m ∧ quiet s.cfg t.pmc m = true ∧ count t m = 0 ∧ t.xW = s.pmc ∧
        t.status = s.status ∧ t.value = s.value ∧
        ∀ p e, p ≠ m → counting s.cfg s.pmc p e = true → count t p = count s p + BitVec.ofNat 64 (turns p 1 s.schedule))

/-- R136 (c), the source's scenario: START, n occurrences of the event, STOP, READ: `VALUE` is exactly n modulo 2^64. -/
def Obligations.MeasuredCount : Prop :=
  ∀ (s : State) (m : Monitor) (ev : Word) (n : Nat), s.cfg.WF → s.pc = .idle →
    s.cfg.evMin ≤ ev.toInt → ev.toInt ≤ s.cfg.evMax → chained s.cfg s.pmc m = true →
    s.schedule = .caller (cwOf 1 (BitVec.ofNat 32 m.val) ev) :: .seq :: .seq :: .seq ::
      (List.replicate n (.cnt (lowSlot m)) ++
        [.caller (cwOf 2 (BitVec.ofNat 32 m.val) 0), .seq, .seq, .caller (cwOf 3 (BitVec.ofNat 32 m.val) 0)]) →
    ∃ t, core.run (n + 3) s = .next t ∧ t.value = BitVec.ofNat 64 n ∧ t.status = 0 ∧ t.pc = .idle

/-! ## The machine as a whole -/

/-- R33, R168: the ghost bit is read by nothing: with it changed, the same steps are taken with the same results in everything else. -/
def Obligations.SetupDoneIsGhost : Prop :=
  ∀ (s t : State) (b : Bool), step s = .next t →
    ∃ b', step { s with setupDone := b } = .next { t with setupDone := b' }

/-- The invariant `Inv` (a well-formed configuration, and latches that hold valid arguments while an operation is in progress) is kept by every
step, of every agent. -/
def Obligations.InvKept : Prop :=
  ∀ s t : State, Inv s → step s = .next t → Inv t

/-- No step changes the configuration (R35 (a): it is a parameter). -/
def Obligations.ConfigurationFixed : Prop :=
  ∀ s t : State, step s = .next t → t.cfg = s.cfg

/-- R140, R142, R54: no step faults: no port access can fail and no address outside the register space is ever produced. -/
def Obligations.NoStepFaults : Prop :=
  ∀ (s : State) (f : Fault), Inv s → step s ≠ .fault f

/-- R12: an operation in progress with no further moves scheduled ends, after at most six port accesses. -/
def Obligations.OperationsEnd : Prop :=
  ∀ s : State, Inv s → s.pc ≠ .idle → s.schedule = [] →
    ∃ t, step s = .next t ∧ t.pc = .idle ∧ t.trace.length ≤ s.trace.length + 6

/-- R100 (last part), R99: on a machine nobody else writes into, once SETUP has completed the five flags stay set and no pair is ever undefined: every
step keeps `SoundRun`. -/
def Obligations.NoUndefinedPairAfterSetup : Prop :=
  (∀ s t : State, SoundRun s → step s = .next t → SoundRun t) ∧
  (∀ (s : State) (p : Monitor), SoundRun s → s.setupDone = true →
    flagsSet s.cfg s.pmc = true ∧ undefinedPair s.cfg s.pmc p = false)

/-- `Inv` and `SoundRun` hold right after reset. -/
def Obligations.ResetMeetsInvariants : Prop :=
  Inv State.reset ∧ SoundRun State.reset

/-- R36, R160: a hardware reset, at any time, leaves `pc = IDLE` and `setup_done = 0`; an operation in progress is gone. Every register is drawn anew:
that the draws are `Config.freeWord` of the draw counter is the model's form (log 1), and that the schedule goes on its choice (log 16). -/
def Obligations.HardwareResetLeaves : Prop :=
  ∀ (s : State) (rest : List Move), s.schedule = .hwReset :: rest →
    ∃ t, step s = .next t ∧ t.pc = .idle ∧ t.setupDone = false ∧ t.cfg = s.cfg ∧ t.schedule = rest ∧
      t.pmc = Config.freeWord s.drawn ∧ (∀ k : Slot, t.pm[k] = Config.freeWord (s.drawn + 1 + k.val)) ∧
      t.xM = Config.freeWord (s.drawn + 5) ∧ t.xE = Config.freeWord (s.drawn + 6) ∧ t.xW = Config.freeWord (s.drawn + 7) ∧
      t.xHI = Config.freeWord (s.drawn + 8) ∧ t.xLO = Config.freeWord (s.drawn + 9) ∧ t.status = Config.freeWord (s.drawn + 10) ∧
      t.value = Config.freeWord (s.drawn + 11) ++ Config.freeWord (s.drawn + 12) ∧ t.drawn = s.drawn + 13
end

