-- ==== Sys2Proof/Laws/State.lean ====
section
/-! SUPPORT. One lemma for each field of State after each named update, true by unfolding, for simp. -/

namespace Sys2Proof.Machine

variable (s : State)

@[simp] theorem goto_pmc (p : Phase) : (goto p s).pmc = s.pmc := rfl
@[simp] theorem goto_pm (p : Phase) : (goto p s).pm = s.pm := rfl
@[simp] theorem goto_xM (p : Phase) : (goto p s).xM = s.xM := rfl
@[simp] theorem goto_xE (p : Phase) : (goto p s).xE = s.xE := rfl
@[simp] theorem goto_xW (p : Phase) : (goto p s).xW = s.xW := rfl
@[simp] theorem goto_xHI (p : Phase) : (goto p s).xHI = s.xHI := rfl
@[simp] theorem goto_xLO (p : Phase) : (goto p s).xLO = s.xLO := rfl
@[simp] theorem goto_pc (p : Phase) : (goto p s).pc = p := rfl
@[simp] theorem goto_status (p : Phase) : (goto p s).status = s.status := rfl
@[simp] theorem goto_value (p : Phase) : (goto p s).value = s.value := rfl
@[simp] theorem goto_setupDone (p : Phase) : (goto p s).setupDone = s.setupDone := rfl
@[simp] theorem goto_cfg (p : Phase) : (goto p s).cfg = s.cfg := rfl
@[simp] theorem goto_schedule (p : Phase) : (goto p s).schedule = s.schedule := rfl
@[simp] theorem goto_drawn (p : Phase) : (goto p s).drawn = s.drawn := rfl
@[simp] theorem goto_codecOut (p : Phase) : (goto p s).codecOut = s.codecOut := rfl
@[simp] theorem goto_trace (p : Phase) : (goto p s).trace = s.trace := rfl

@[simp] theorem fail_pmc (st : Word) : (fail st s).pmc = s.pmc := rfl
@[simp] theorem fail_pm (st : Word) : (fail st s).pm = s.pm := rfl
@[simp] theorem fail_xM (st : Word) : (fail st s).xM = s.xM := rfl
@[simp] theorem fail_xE (st : Word) : (fail st s).xE = s.xE := rfl
@[simp] theorem fail_xW (st : Word) : (fail st s).xW = s.xW := rfl
@[simp] theorem fail_xHI (st : Word) : (fail st s).xHI = s.xHI := rfl
@[simp] theorem fail_xLO (st : Word) : (fail st s).xLO = s.xLO := rfl
@[simp] theorem fail_pc (st : Word) : (fail st s).pc = .idle := rfl
@[simp] theorem fail_status (st : Word) : (fail st s).status = st := rfl
@[simp] theorem fail_value (st : Word) : (fail st s).value = s.value := rfl
@[simp] theorem fail_setupDone (st : Word) : (fail st s).setupDone = s.setupDone := rfl
@[simp] theorem fail_cfg (st : Word) : (fail st s).cfg = s.cfg := rfl
@[simp] theorem fail_schedule (st : Word) : (fail st s).schedule = s.schedule := rfl
@[simp] theorem fail_drawn (st : Word) : (fail st s).drawn = s.drawn := rfl
@[simp] theorem fail_codecOut (st : Word) : (fail st s).codecOut = s.codecOut := rfl
@[simp] theorem fail_trace (st : Word) : (fail st s).trace = s.trace := rfl

@[simp] theorem succeed_pmc : (succeed s).pmc = s.pmc := rfl
@[simp] theorem succeed_pm : (succeed s).pm = s.pm := rfl
@[simp] theorem succeed_xM : (succeed s).xM = s.xM := rfl
@[simp] theorem succeed_xE : (succeed s).xE = s.xE := rfl
@[simp] theorem succeed_xW : (succeed s).xW = s.xW := rfl
@[simp] theorem succeed_xHI : (succeed s).xHI = s.xHI := rfl
@[simp] theorem succeed_xLO : (succeed s).xLO = s.xLO := rfl
@[simp] theorem succeed_pc : (succeed s).pc = .idle := rfl
@[simp] theorem succeed_status : (succeed s).status = stOk := rfl
@[simp] theorem succeed_value : (succeed s).value = s.value := rfl
@[simp] theorem succeed_setupDone : (succeed s).setupDone = s.setupDone := rfl
@[simp] theorem succeed_cfg : (succeed s).cfg = s.cfg := rfl
@[simp] theorem succeed_schedule : (succeed s).schedule = s.schedule := rfl
@[simp] theorem succeed_drawn : (succeed s).drawn = s.drawn := rfl
@[simp] theorem succeed_codecOut : (succeed s).codecOut = s.codecOut := rfl
@[simp] theorem succeed_trace : (succeed s).trace = s.trace := rfl

@[simp] theorem wrPmc_pmc (v : Word) : (wrPmc v s).pmc = v := rfl
@[simp] theorem wrPmc_pm (v : Word) : (wrPmc v s).pm = resetCounters s.cfg v s.pm := rfl
@[simp] theorem wrPmc_xM (v : Word) : (wrPmc v s).xM = s.xM := rfl
@[simp] theorem wrPmc_xE (v : Word) : (wrPmc v s).xE = s.xE := rfl
@[simp] theorem wrPmc_xW (v : Word) : (wrPmc v s).xW = s.xW := rfl
@[simp] theorem wrPmc_xHI (v : Word) : (wrPmc v s).xHI = s.xHI := rfl
@[simp] theorem wrPmc_xLO (v : Word) : (wrPmc v s).xLO = s.xLO := rfl
@[simp] theorem wrPmc_pc (v : Word) : (wrPmc v s).pc = s.pc := rfl
@[simp] theorem wrPmc_status (v : Word) : (wrPmc v s).status = s.status := rfl
@[simp] theorem wrPmc_value (v : Word) : (wrPmc v s).value = s.value := rfl
@[simp] theorem wrPmc_setupDone (v : Word) : (wrPmc v s).setupDone = s.setupDone := rfl
@[simp] theorem wrPmc_cfg (v : Word) : (wrPmc v s).cfg = s.cfg := rfl
@[simp] theorem wrPmc_schedule (v : Word) : (wrPmc v s).schedule = s.schedule := rfl
@[simp] theorem wrPmc_drawn (v : Word) : (wrPmc v s).drawn = s.drawn := rfl
@[simp] theorem wrPmc_codecOut (v : Word) : (wrPmc v s).codecOut = s.codecOut := rfl
@[simp] theorem wrPmc_trace (v : Word) : (wrPmc v s).trace = s.trace := rfl

@[simp] theorem fetchPmc_pmc : (fetchPmc s).pmc = s.pmc := rfl
@[simp] theorem fetchPmc_pm : (fetchPmc s).pm = s.pm := rfl
@[simp] theorem fetchPmc_xM : (fetchPmc s).xM = s.xM := rfl
@[simp] theorem fetchPmc_xE : (fetchPmc s).xE = s.xE := rfl
@[simp] theorem fetchPmc_xW : (fetchPmc s).xW = s.pmc := rfl
@[simp] theorem fetchPmc_xHI : (fetchPmc s).xHI = s.xHI := rfl
@[simp] theorem fetchPmc_xLO : (fetchPmc s).xLO = s.xLO := rfl
@[simp] theorem fetchPmc_pc : (fetchPmc s).pc = s.pc := rfl
@[simp] theorem fetchPmc_status : (fetchPmc s).status = s.status := rfl
@[simp] theorem fetchPmc_value : (fetchPmc s).value = s.value := rfl
@[simp] theorem fetchPmc_setupDone : (fetchPmc s).setupDone = s.setupDone := rfl
@[simp] theorem fetchPmc_cfg : (fetchPmc s).cfg = s.cfg := rfl
@[simp] theorem fetchPmc_schedule : (fetchPmc s).schedule = s.schedule := rfl
@[simp] theorem fetchPmc_drawn : (fetchPmc s).drawn = s.drawn := rfl
@[simp] theorem fetchPmc_codecOut : (fetchPmc s).codecOut = s.codecOut := rfl
@[simp] theorem fetchPmc_trace : (fetchPmc s).trace = .rdPmc s.pmc :: s.trace := rfl

@[simp] theorem storePmc_pmc (v : Word) : (storePmc v s).pmc = v := rfl
@[simp] theorem storePmc_pm (v : Word) : (storePmc v s).pm = resetCounters s.cfg v s.pm := rfl
@[simp] theorem storePmc_xM (v : Word) : (storePmc v s).xM = s.xM := rfl
@[simp] theorem storePmc_xE (v : Word) : (storePmc v s).xE = s.xE := rfl
@[simp] theorem storePmc_xW (v : Word) : (storePmc v s).xW = s.xW := rfl
@[simp] theorem storePmc_xHI (v : Word) : (storePmc v s).xHI = s.xHI := rfl
@[simp] theorem storePmc_xLO (v : Word) : (storePmc v s).xLO = s.xLO := rfl
@[simp] theorem storePmc_pc (v : Word) : (storePmc v s).pc = s.pc := rfl
@[simp] theorem storePmc_status (v : Word) : (storePmc v s).status = s.status := rfl
@[simp] theorem storePmc_value (v : Word) : (storePmc v s).value = s.value := rfl
@[simp] theorem storePmc_setupDone (v : Word) : (storePmc v s).setupDone = s.setupDone := rfl
@[simp] theorem storePmc_cfg (v : Word) : (storePmc v s).cfg = s.cfg := rfl
@[simp] theorem storePmc_schedule (v : Word) : (storePmc v s).schedule = s.schedule := rfl
@[simp] theorem storePmc_drawn (v : Word) : (storePmc v s).drawn = s.drawn := rfl
@[simp] theorem storePmc_codecOut (v : Word) : (storePmc v s).codecOut = s.codecOut := rfl
@[simp] theorem storePmc_trace (v : Word) : (storePmc v s).trace = .wrPmc v :: s.trace := rfl

@[simp] theorem fetchHigh_pmc (k : Slot) : (fetchHigh k s).pmc = s.pmc := rfl
@[simp] theorem fetchHigh_pm (k : Slot) : (fetchHigh k s).pm = s.pm := rfl
@[simp] theorem fetchHigh_xM (k : Slot) : (fetchHigh k s).xM = s.xM := rfl
@[simp] theorem fetchHigh_xE (k : Slot) : (fetchHigh k s).xE = s.xE := rfl
@[simp] theorem fetchHigh_xW (k : Slot) : (fetchHigh k s).xW = s.xW := rfl
@[simp] theorem fetchHigh_xHI (k : Slot) : (fetchHigh k s).xHI = s.pm[k] := rfl
@[simp] theorem fetchHigh_xLO (k : Slot) : (fetchHigh k s).xLO = s.xLO := rfl
@[simp] theorem fetchHigh_pc (k : Slot) : (fetchHigh k s).pc = s.pc := rfl
@[simp] theorem fetchHigh_status (k : Slot) : (fetchHigh k s).status = s.status := rfl
@[simp] theorem fetchHigh_value (k : Slot) : (fetchHigh k s).value = s.value := rfl
@[simp] theorem fetchHigh_setupDone (k : Slot) : (fetchHigh k s).setupDone = s.setupDone := rfl
@[simp] theorem fetchHigh_cfg (k : Slot) : (fetchHigh k s).cfg = s.cfg := rfl
@[simp] theorem fetchHigh_schedule (k : Slot) : (fetchHigh k s).schedule = s.schedule := rfl
@[simp] theorem fetchHigh_drawn (k : Slot) : (fetchHigh k s).drawn = s.drawn := rfl
@[simp] theorem fetchHigh_codecOut (k : Slot) : (fetchHigh k s).codecOut = s.codecOut := rfl
@[simp] theorem fetchHigh_trace (k : Slot) : (fetchHigh k s).trace = .rdPm k s.pm[k] :: s.trace := rfl

@[simp] theorem fetchLow_pmc (k : Slot) : (fetchLow k s).pmc = s.pmc := rfl
@[simp] theorem fetchLow_pm (k : Slot) : (fetchLow k s).pm = s.pm := rfl
@[simp] theorem fetchLow_xM (k : Slot) : (fetchLow k s).xM = s.xM := rfl
@[simp] theorem fetchLow_xE (k : Slot) : (fetchLow k s).xE = s.xE := rfl
@[simp] theorem fetchLow_xW (k : Slot) : (fetchLow k s).xW = s.xW := rfl
@[simp] theorem fetchLow_xHI (k : Slot) : (fetchLow k s).xHI = s.xHI := rfl
@[simp] theorem fetchLow_xLO (k : Slot) : (fetchLow k s).xLO = s.pm[k] := rfl
@[simp] theorem fetchLow_pc (k : Slot) : (fetchLow k s).pc = s.pc := rfl
@[simp] theorem fetchLow_status (k : Slot) : (fetchLow k s).status = s.status := rfl
@[simp] theorem fetchLow_value (k : Slot) : (fetchLow k s).value = s.value := rfl
@[simp] theorem fetchLow_setupDone (k : Slot) : (fetchLow k s).setupDone = s.setupDone := rfl
@[simp] theorem fetchLow_cfg (k : Slot) : (fetchLow k s).cfg = s.cfg := rfl
@[simp] theorem fetchLow_schedule (k : Slot) : (fetchLow k s).schedule = s.schedule := rfl
@[simp] theorem fetchLow_drawn (k : Slot) : (fetchLow k s).drawn = s.drawn := rfl
@[simp] theorem fetchLow_codecOut (k : Slot) : (fetchLow k s).codecOut = s.codecOut := rfl
@[simp] theorem fetchLow_trace (k : Slot) : (fetchLow k s).trace = .rdPm k s.pm[k] :: s.trace := rfl

@[simp] theorem zeroSlot_pmc (k : Slot) : (zeroSlot k s).pmc = s.pmc := rfl
@[simp] theorem zeroSlot_pm (k : Slot) : (zeroSlot k s).pm = s.pm.set k 0 := rfl
@[simp] theorem zeroSlot_xM (k : Slot) : (zeroSlot k s).xM = s.xM := rfl
@[simp] theorem zeroSlot_xE (k : Slot) : (zeroSlot k s).xE = s.xE := rfl
@[simp] theorem zeroSlot_xW (k : Slot) : (zeroSlot k s).xW = s.xW := rfl
@[simp] theorem zeroSlot_xHI (k : Slot) : (zeroSlot k s).xHI = s.xHI := rfl
@[simp] theorem zeroSlot_xLO (k : Slot) : (zeroSlot k s).xLO = s.xLO := rfl
@[simp] theorem zeroSlot_pc (k : Slot) : (zeroSlot k s).pc = s.pc := rfl
@[simp] theorem zeroSlot_status (k : Slot) : (zeroSlot k s).status = s.status := rfl
@[simp] theorem zeroSlot_value (k : Slot) : (zeroSlot k s).value = s.value := rfl
@[simp] theorem zeroSlot_setupDone (k : Slot) : (zeroSlot k s).setupDone = s.setupDone := rfl
@[simp] theorem zeroSlot_cfg (k : Slot) : (zeroSlot k s).cfg = s.cfg := rfl
@[simp] theorem zeroSlot_schedule (k : Slot) : (zeroSlot k s).schedule = s.schedule := rfl
@[simp] theorem zeroSlot_drawn (k : Slot) : (zeroSlot k s).drawn = s.drawn := rfl
@[simp] theorem zeroSlot_codecOut (k : Slot) : (zeroSlot k s).codecOut = s.codecOut := rfl
@[simp] theorem zeroSlot_trace (k : Slot) : (zeroSlot k s).trace = s.trace := rfl

@[simp] theorem countPair_pmc (p : Monitor) : (countPair p s).pmc = s.pmc := rfl
@[simp] theorem countPair_pm (p : Monitor) : (countPair p s).pm = setPair p (count s p + 1) s.pm := rfl
@[simp] theorem countPair_xM (p : Monitor) : (countPair p s).xM = s.xM := rfl
@[simp] theorem countPair_xE (p : Monitor) : (countPair p s).xE = s.xE := rfl
@[simp] theorem countPair_xW (p : Monitor) : (countPair p s).xW = s.xW := rfl
@[simp] theorem countPair_xHI (p : Monitor) : (countPair p s).xHI = s.xHI := rfl
@[simp] theorem countPair_xLO (p : Monitor) : (countPair p s).xLO = s.xLO := rfl
@[simp] theorem countPair_pc (p : Monitor) : (countPair p s).pc = s.pc := rfl
@[simp] theorem countPair_status (p : Monitor) : (countPair p s).status = s.status := rfl
@[simp] theorem countPair_value (p : Monitor) : (countPair p s).value = s.value := rfl
@[simp] theorem countPair_setupDone (p : Monitor) : (countPair p s).setupDone = s.setupDone := rfl
@[simp] theorem countPair_cfg (p : Monitor) : (countPair p s).cfg = s.cfg := rfl
@[simp] theorem countPair_schedule (p : Monitor) : (countPair p s).schedule = s.schedule := rfl
@[simp] theorem countPair_drawn (p : Monitor) : (countPair p s).drawn = s.drawn := rfl
@[simp] theorem countPair_codecOut (p : Monitor) : (countPair p s).codecOut = s.codecOut := rfl
@[simp] theorem countPair_trace (p : Monitor) : (countPair p s).trace = s.trace := rfl

@[simp] theorem havocPair_pmc (p : Monitor) : (havocPair p s).pmc = s.pmc := rfl
@[simp] theorem havocPair_pm (p : Monitor) : (havocPair p s).pm = (s.pm.set (lowSlot p) (Config.freeWord s.drawn)).set (highSlot p) (Config.freeWord (s.drawn + 1)) := rfl
@[simp] theorem havocPair_xM (p : Monitor) : (havocPair p s).xM = s.xM := rfl
@[simp] theorem havocPair_xE (p : Monitor) : (havocPair p s).xE = s.xE := rfl
@[simp] theorem havocPair_xW (p : Monitor) : (havocPair p s).xW = s.xW := rfl
@[simp] theorem havocPair_xHI (p : Monitor) : (havocPair p s).xHI = s.xHI := rfl
@[simp] theorem havocPair_xLO (p : Monitor) : (havocPair p s).xLO = s.xLO := rfl
@[simp] theorem havocPair_pc (p : Monitor) : (havocPair p s).pc = s.pc := rfl
@[simp] theorem havocPair_status (p : Monitor) : (havocPair p s).status = s.status := rfl
@[simp] theorem havocPair_value (p : Monitor) : (havocPair p s).value = s.value := rfl
@[simp] theorem havocPair_setupDone (p : Monitor) : (havocPair p s).setupDone = s.setupDone := rfl
@[simp] theorem havocPair_cfg (p : Monitor) : (havocPair p s).cfg = s.cfg := rfl
@[simp] theorem havocPair_schedule (p : Monitor) : (havocPair p s).schedule = s.schedule := rfl
@[simp] theorem havocPair_drawn (p : Monitor) : (havocPair p s).drawn = s.drawn + 2 := rfl
@[simp] theorem havocPair_codecOut (p : Monitor) : (havocPair p s).codecOut = s.codecOut := rfl
@[simp] theorem havocPair_trace (p : Monitor) : (havocPair p s).trace = s.trace := rfl

@[simp] theorem answer_pmc (v : Word) : (answer v s).pmc = s.pmc := rfl
@[simp] theorem answer_pm (v : Word) : (answer v s).pm = s.pm := rfl
@[simp] theorem answer_xM (v : Word) : (answer v s).xM = s.xM := rfl
@[simp] theorem answer_xE (v : Word) : (answer v s).xE = s.xE := rfl
@[simp] theorem answer_xW (v : Word) : (answer v s).xW = s.xW := rfl
@[simp] theorem answer_xHI (v : Word) : (answer v s).xHI = s.xHI := rfl
@[simp] theorem answer_xLO (v : Word) : (answer v s).xLO = s.xLO := rfl
@[simp] theorem answer_pc (v : Word) : (answer v s).pc = s.pc := rfl
@[simp] theorem answer_status (v : Word) : (answer v s).status = s.status := rfl
@[simp] theorem answer_value (v : Word) : (answer v s).value = s.value := rfl
@[simp] theorem answer_setupDone (v : Word) : (answer v s).setupDone = s.setupDone := rfl
@[simp] theorem answer_cfg (v : Word) : (answer v s).cfg = s.cfg := rfl
@[simp] theorem answer_schedule (v : Word) : (answer v s).schedule = s.schedule := rfl
@[simp] theorem answer_drawn (v : Word) : (answer v s).drawn = s.drawn := rfl
@[simp] theorem answer_codecOut (v : Word) : (answer v s).codecOut = v := rfl
@[simp] theorem answer_trace (v : Word) : (answer v s).trace = s.trace := rfl

@[simp] theorem hardwareReset_pc : (hardwareReset s).pc = .idle := rfl
@[simp] theorem hardwareReset_setupDone : (hardwareReset s).setupDone = false := rfl
@[simp] theorem hardwareReset_cfg : (hardwareReset s).cfg = s.cfg := rfl
@[simp] theorem hardwareReset_schedule : (hardwareReset s).schedule = s.schedule := rfl
@[simp] theorem hardwareReset_drawn : (hardwareReset s).drawn = s.drawn + 13 := rfl
@[simp] theorem hardwareReset_codecOut : (hardwareReset s).codecOut = s.codecOut := rfl
@[simp] theorem hardwareReset_trace : (hardwareReset s).trace = s.trace := rfl

end Sys2Proof.Machine
end

