-- ==== Sys2Proof/Laws/Config.lean ====
section
/-! SUPPORT. What `WF_CFG` gives (R7), the reading of nibbles and of arguments under it (R62, R90, R111, R112). -/

namespace Sys2Proof

theorem cfgRef_wf : cfgRef.WF := by decide

theorem cfgAlt_wf : cfgAlt.WF := by decide

/-- The configuration after reset is well formed, whatever the chip's is. -/
theorem chipCfg_wf : Config.chipCfg.WF := by
  unfold Config.chipCfg
  split
  · assumption
  · exact cfgRef_wf

namespace Machine

theorem validEv_iff (c : Cfg) (e : Int) : validEv c e = true ↔ c.evMin ≤ e ∧ e ≤ c.evMax := by simp [validEv]

/-- `RUN` is defined exactly at the valid events (clause w5). -/
theorem runOf_isSome (c : Cfg) (h : c.WF) (e : Event) : (runOf c e).isSome = validEv c e.toNat := by
  have he := e.isLt
  unfold runOf
  split
  · next hv => rw [hv]; exact (h.2.2.2.2.1 ⟨e.toNat, he⟩ ((validEv_iff c _).1 hv)).1
  · next hv => simpa using hv

/-- A running pattern is neither sentinel (clause w5). -/
theorem runOf_ne (c : Cfg) (h : c.WF) (e : Event) (n : Nibble) (hn : runOf c e = some n) : n ≠ c.nibStop ∧ n ≠ c.nibReset := by
  have he := e.isLt
  unfold runOf at hn
  split at hn
  · next hv =>
    have := h.2.2.2.2.1 ⟨e.toNat, he⟩ ((validEv_iff c _).1 hv)
    simp only [hn] at this
    exact ⟨fun h' => this.2.1 (by rw [h']), fun h' => this.2.2 (by rw [h'])⟩
  · cases hn

/-- `RUN` is injective on the valid events (clause w6). -/
theorem runOf_inj (c : Cfg) (h : c.WF) (e e' : Event) (n : Nibble) (hn : runOf c e = some n) (hn' : runOf c e' = some n) : e = e' := by
  unfold runOf at hn hn'
  split at hn
  · next hv =>
    split at hn'
    · next hv' =>
      have := h.2.2.2.2.2.1 ⟨e.toNat, e.isLt⟩ ⟨e'.toNat, e'.isLt⟩ ((validEv_iff c _).1 hv) ((validEv_iff c _).1 hv')
        (by simp only [hn, hn'])
      exact BitVec.eq_of_toNat_eq (Fin.mk.inj_iff.1 this)
    · cases hn'
  · cases hn

theorem mem_allEvents (e : Event) : e ∈ allEvents := by revert e; decide

theorem nibCmd_reset (c : Cfg) : nibCmd c c.nibReset = .reset := by simp [nibCmd]

theorem nibCmd_stop (c : Cfg) (h : c.WF) : nibCmd c c.nibStop = .stop := by simp [nibCmd, h.2.2.1]

/-- A running pattern reads as the one event it was made from (R62). -/
theorem nibCmd_run (c : Cfg) (h : c.WF) (e : Event) (n : Nibble) (hn : runOf c e = some n) : nibCmd c n = .run e := by
  have hne := runOf_ne c h e n hn
  unfold nibCmd
  rw [if_neg hne.2, if_neg hne.1]
  cases hf : allEvents.find? (fun e => runOf c e == some n) with
  | none => exact absurd (by simpa using hn) (List.find?_eq_none.1 hf e (mem_allEvents e))
  | some e' =>
    have h' : runOf c e' = some n := by simpa using List.find?_some hf
    rw [runOf_inj c h e e' n hn h']

/-- What a nibble read as Run(e) holds. -/
theorem runOf_of_nibCmd (c : Cfg) (n : Nibble) (e : Event) (h : nibCmd c n = .run e) : runOf c e = some n := by
  unfold nibCmd at h
  split at h
  · cases h
  · split at h
    · cases h
    · split at h
      · next e' hf => cases h; simpa using List.find?_some hf
      · cases h

theorem eq_of_nibCmd_stop (c : Cfg) (n : Nibble) (h : nibCmd c n = .stop) : n = c.nibStop := by
  unfold nibCmd at h
  split at h
  · cases h
  · split at h
    · assumption
    · split at h <;> cases h

theorem nibCmd_eq_reset_iff (c : Cfg) (n : Nibble) : nibCmd c n = .reset ↔ n = c.nibReset := by
  constructor
  · intro h
    unfold nibCmd at h
    split at h
    · assumption
    · split at h
      · cases h
      · split at h <;> cases h
  · rintro rfl
    exact nibCmd_reset c

/-- The valid monitor arguments are the two words 0 and 1 (R111). -/
theorem monitorOf_eq_some_iff (x : Word) (m : Monitor) : monitorOf x = some m ↔ x = BitVec.ofNat 32 m.val := by
  have h0 : x.toInt = 0 ↔ x = 0#32 := by rw [← BitVec.toInt_inj]; simp
  have h1 : x.toInt = 1 ↔ x = 1#32 := by rw [← BitVec.toInt_inj]; simp
  simp only [monitorOf, h0, h1]
  fin_cases m
  · by_cases hx : x = 0#32
    · simp [hx]
    · by_cases hx1 : x = 1#32 <;> simp [hx, hx1]
  · by_cases hx : x = 0#32
    · simp [hx]
    · by_cases hx1 : x = 1#32 <;> simp [hx, hx1]

@[simp] theorem monitorOf_ofNat (m : Monitor) : monitorOf (BitVec.ofNat 32 m.val) = some m := (monitorOf_eq_some_iff _ m).2 rfl

theorem monitorOf_isSome (x : Word) : (monitorOf x).isSome = validMon x.toInt := by
  unfold monitorOf validMon
  by_cases h0 : x.toInt = 0 <;> by_cases h1 : x.toInt = 1 <;> simp [h0, h1]

/-- A valid event argument is read whole: nothing of it is cut off (R112, clause w8). -/
theorem eventOf_toNat (c : Cfg) (h : c.WF) (x : Word) (e : Event) (he : eventOf c x = some e) : x.toInt = e.toNat ∧ validEv c e.toNat = true := by
  unfold eventOf at he
  split at he
  · next hv =>
    have hb := (validEv_iff c _).1 hv
    have hlo : 0 ≤ x.toInt := le_trans h.2.2.2.2.2.2.2.1 hb.1
    have hhi : x.toInt ≤ 15 := le_trans hb.2 h.2.2.2.2.2.2.2.2
    have hx : x.toInt = x.toNat := by
      rw [BitVec.toInt_eq_toNat_cond] at *
      split at hlo <;> split <;> omega
    have hn : (x.setWidth 4).toNat = x.toNat := by
      rw [BitVec.toNat_setWidth]; omega
    cases he
    rw [hn, ← hx]
    exact ⟨rfl, hv⟩
  · cases he

/-- A valid event argument and its running pattern (R63, R112). -/
theorem eventOf_valid (c : Cfg) (h : c.WF) (x : Word) (h1 : c.evMin ≤ x.toInt) (h2 : x.toInt ≤ c.evMax) :
    eventOf c x = some (x.setWidth 4) ∧ ∃ n, runOf c (x.setWidth 4) = some n ∧ c.run[x.toInt.toNat]? = some n := by
  have he : eventOf c x = some (x.setWidth 4) := by rw [eventOf, if_pos ((validEv_iff _ _).2 ⟨h1, h2⟩)]
  obtain ⟨h3, h4⟩ := eventOf_toNat c h x _ he
  have := runOf_isSome c h (x.setWidth 4)
  rw [h4] at this
  obtain ⟨n, hn⟩ := Option.isSome_iff_exists.1 this
  refine ⟨he, n, hn, ?_⟩
  rw [runOf, if_pos h4] at hn
  rw [h3, Int.toNat_natCast]
  exact hn

theorem eventOf_isSome (c : Cfg) (x : Word) : (eventOf c x).isSome = validEv c x.toInt := by
  unfold eventOf
  split <;> simp_all

end Machine

end Sys2Proof
end

