-- ==== Sys2Proof/Laws/Words.lean ====
section
/-! SUPPORT. The bits of slot placement, masks and control words: each operation on words said once, bit by bit, and what clear-then-OR does
to a nibble and to a flag (R64, R65, R86). -/

namespace Sys2Proof.Machine

theorem nib_getLsbD (w : Word) (k : Slot) (i : Nat) :
    (nib w k).getLsbD i = (decide (i < 4) && w.getLsbD (4 * k.val + i)) := by
  simp [nib, BitVec.getLsbD_extractLsb']

theorem nib_getElem (w : Word) (k : Slot) (i : Nat) (hi : i < 4) : (nib w k)[i] = w.getLsbD (4 * k.val + i) := by
  rw [← BitVec.getLsbD_eq_getElem, nib_getLsbD]
  simp [hi]

theorem place_getLsbD (n : Nibble) (k : Slot) (i : Nat) :
    (place n k).getLsbD i = (decide (4 * k.val ≤ i) && n.getLsbD (i - 4 * k.val)) := by
  have hk := k.isLt
  by_cases h : i < 32
  · by_cases h2 : 4 * k.val ≤ i <;> simp [place, h, h2]
  · rw [BitVec.getLsbD_of_ge _ _ (by omega), BitVec.getLsbD_of_ge n _ (by omega)]; simp

theorem mask_eq_place (k : Slot) : mask k = place 0xF#4 k := by revert k; decide

theorem mask_getLsbD (k : Slot) (i : Nat) :
    (mask k).getLsbD i = (decide (4 * k.val ≤ i) && decide (i < 4 * k.val + 4)) := by
  have hF : (0xF#4) = BitVec.allOnes 4 := by decide
  rw [mask_eq_place, place_getLsbD, hF, BitVec.getLsbD_allOnes]
  by_cases h : 4 * k.val ≤ i
  · have : (i - 4 * k.val < 4) = (i < 4 * k.val + 4) := by rw [eq_iff_iff]; omega
    simp [h, this]
  · simp [h]

theorem install_getLsbD (w K V : Word) (i : Nat) :
    (install w K V).getLsbD i = ((w.getLsbD i && !K.getLsbD i) || V.getLsbD i) := by
  by_cases h : i < 32
  · simp [install, h]
  · simp [BitVec.getLsbD_of_ge _ i (Nat.le_of_not_lt h)]

theorem bitWord_getLsbD (b : Fin 32) (i : Nat) : (bitWord b).getLsbD i = decide (i = b.val) := by
  have hb := b.isLt
  by_cases h : i < 32
  · simp only [bitWord, BitVec.getLsbD_shiftLeft, h, decide_true, Bool.true_and, BitVec.getLsbD_one]
    by_cases h2 : i < b.val <;> simp [h2] <;> omega
  · rw [BitVec.getLsbD_of_ge _ _ (by omega)]; simp; omega

theorem flagsAll_getLsbD (c : Cfg) (i : Nat) :
    (flagsAll c).getLsbD i = decide (∃ b ∈ c.flagBits, i = b.val) := by
  simp [flagsAll, bitWord_getLsbD, Cfg.flagBits, Bool.or_assoc]

/-- The flags lie above the nibbles (clause w2). -/
theorem flagsAll_low (c : Cfg) (h : c.WF) (i : Nat) (hi : i < 16) : (flagsAll c).getLsbD i = false := by
  rw [flagsAll_getLsbD, decide_eq_false]
  rintro ⟨b, hb, rfl⟩
  have := h.2.1 b hb
  omega

/-! ## The fields of command and request words (R68, R72) -/

@[simp] theorem cwOp_cwOf (op : BitVec 3) (mon ev : Word) : cwOp (cwOf op mon ev) = op := by
  apply BitVec.eq_of_getLsbD_eq
  intro i hi
  simp only [cwOp, cwOf, BitVec.getLsbD_extractLsb', BitVec.getLsbD_append]
  interval_cases i <;> simp

@[simp] theorem cwMon_cwOf (op : BitVec 3) (mon ev : Word) : cwMon (cwOf op mon ev) = mon := by
  apply BitVec.eq_of_getLsbD_eq
  intro i hi
  simp only [cwMon, cwOf, BitVec.getLsbD_extractLsb', BitVec.getLsbD_append]
  simp [hi]

@[simp] theorem cwEv_cwOf (op : BitVec 3) (mon ev : Word) : cwEv (cwOf op mon ev) = ev := by
  apply BitVec.eq_of_getLsbD_eq
  intro i hi
  simp only [cwEv, cwOf, BitVec.getLsbD_extractLsb', BitVec.getLsbD_append]
  simp [hi]

@[simp] theorem cqFn_cqOf (fn : BitVec 2) (k : Slot) (ev : Event) : cqFn (cqOf fn k ev) = fn := by
  apply BitVec.eq_of_getLsbD_eq
  intro i hi
  simp only [cqFn, cqOf, BitVec.getLsbD_extractLsb', BitVec.getLsbD_append]
  interval_cases i <;> simp

@[simp] theorem cqSlot_cqOf (fn : BitVec 2) (k : Slot) (ev : Event) : cqSlot (cqOf fn k ev) = k := by
  revert fn k ev
  decide

@[simp] theorem cqEv_cqOf (fn : BitVec 2) (k : Slot) (ev : Event) : cqEv (cqOf fn k ev) = ev := by
  apply BitVec.eq_of_getLsbD_eq
  intro i hi
  simp only [cqEv, cqOf, BitVec.getLsbD_extractLsb', BitVec.getLsbD_append]
  simp [hi]

/-- The two-nibble word of a monitor with the same value in both nibbles: RESET2, STOP2 and START2 are of this form (R113). -/
def pairWord (n : Nibble) (m : Monitor) : Word := place n (lowSlot m) ||| place n (highSlot m)

theorem reset2_eq (c : Cfg) (m : Monitor) : reset2 c m = pairWord c.nibReset m := rfl

theorem stop2_eq (c : Cfg) (m : Monitor) : stop2 c m = pairWord c.nibStop m := rfl

theorem start2_eq (c : Cfg) (m : Monitor) (e : Event) : start2 c m e = (runOf c e).map (pairWord · m) := by
  unfold start2 encStart pairWord
  cases runOf c e <;> rfl

/-- Clear-then-OR on one slot: its nibble becomes the new one (R86, L4). -/
theorem nib_install_slot (w : Word) (n : Nibble) (k : Slot) : nib (install w (mask k) (place n k)) k = n := by
  apply BitVec.eq_of_getLsbD_eq
  intro i hi
  simp [nib_getElem, install_getLsbD, mask_getLsbD, place_getLsbD, hi]

/-- Clear-then-OR on a monitor: its two nibbles become the new one, the others stay (R26 (i)). -/
theorem nib_install_pair (w : Word) (n : Nibble) (m : Monitor) (k : Slot) :
    nib (install w (monMask m) (pairWord n m)) k = if pairOf k = m then n else nib w k := by
  apply BitVec.eq_of_getLsbD_eq
  intro i hi
  simp only [nib_getLsbD, install_getLsbD, monMask, pairWord, BitVec.getLsbD_or, mask_getLsbD, place_getLsbD, hi]
  fin_cases m <;> fin_cases k <;> interval_cases i <;> simp [lowSlot, highSlot, pairOf, nib_getElem, BitVec.getLsbD_of_ge]

/-- Outside a monitor's nibbles clear-then-OR keeps every bit. -/
theorem getLsbD_install_pair_high (w : Word) (n : Nibble) (m : Monitor) (i : Nat) (hi : 16 ≤ i) :
    (install w (monMask m) (pairWord n m)).getLsbD i = w.getLsbD i := by
  have := m.isLt
  simp only [install_getLsbD, monMask, pairWord, BitVec.getLsbD_or, mask_getLsbD, place_getLsbD, lowSlot, highSlot]
  rw [BitVec.getLsbD_of_ge n _ (by omega), BitVec.getLsbD_of_ge n _ (by omega)]
  have h1 : ¬ i < 4 * (2 * m.val) + 4 := by omega
  have h2 : ¬ i < 4 * (2 * m.val + 1) + 4 := by omega
  simp [h1, h2]

theorem install_pair_outside (w : Word) (n : Nibble) (m : Monitor) :
    install w (monMask m) (pairWord n m) &&& ~~~monMask m = w &&& ~~~monMask m := by
  apply BitVec.eq_of_getLsbD_eq
  intro i hi
  simp only [BitVec.getLsbD_and, BitVec.getLsbD_not, install_getLsbD, monMask, pairWord, BitVec.getLsbD_or, mask_getLsbD,
    place_getLsbD, hi]
  fin_cases m <;> interval_cases i <;> simp [lowSlot, highSlot, BitVec.getLsbD_of_ge]

/-- Clear-then-OR depends on the word only outside the cleared nibbles. -/
theorem install_congr (w w' K V : Word) (h : w &&& ~~~K = w' &&& ~~~K) : install w K V = install w' K V := by
  simp [install, h]

theorem nib_setupWord (c : Cfg) (h : c.WF) (w : Word) (k : Slot) : nib (setupWord c w) k = c.nibStop := by
  apply BitVec.eq_of_getLsbD_eq
  intro i hi
  have hk := k.isLt
  simp only [nib_getLsbD, setupWord, install_getLsbD, allMask, stopAll, encStop, BitVec.getLsbD_or, mask_getLsbD, place_getLsbD, hi,
    flagsAll_low c h (4 * k.val + i) (by omega)]
  fin_cases k <;> interval_cases i <;> simp [BitVec.getLsbD_of_ge]

theorem setupWord_high (c : Cfg) (w : Word) (i : Nat) (hi : 16 ≤ i) :
    (setupWord c w).getLsbD i = (w.getLsbD i || (flagsAll c).getLsbD i) := by
  simp only [setupWord, install_getLsbD, allMask, stopAll, encStop, BitVec.getLsbD_or, mask_getLsbD, place_getLsbD]
  simp only [Fin.isValue, Fin.val_zero, Fin.val_one, Fin.val_two]
  have h3 : ((3 : Fin 4) : Nat) = 3 := rfl
  rw [h3, BitVec.getLsbD_of_ge c.nibStop _ (by omega), BitVec.getLsbD_of_ge c.nibStop _ (by omega),
    BitVec.getLsbD_of_ge c.nibStop _ (by omega), BitVec.getLsbD_of_ge c.nibStop _ (by omega)]
  have h0 : ¬ i < 4 * 0 + 4 := by omega
  have h1 : ¬ i < 4 * 1 + 4 := by omega
  have h2 : ¬ i < 4 * 2 + 4 := by omega
  have h4 : ¬ i < 4 * 3 + 4 := by omega
  simp [h0, h1, h2, h4]

end Sys2Proof.Machine
end

