-- ==== Sys2Proof/Laws/Status.lean ====
section
/-! SUPPORT. What the status predicates of a slot and a pair say of the words the block writes (R90, R96, R100, R102, R118). -/

namespace Sys2Proof.Machine

@[simp] theorem pairOf_lowSlot (m : Monitor) : pairOf (lowSlot m) = m := by revert m; decide

@[simp] theorem pairOf_highSlot (m : Monitor) : pairOf (highSlot m) = m := by revert m; decide

theorem lowSlot_ne_highSlot (m m' : Monitor) : lowSlot m ≠ highSlot m' := by revert m m'; decide

/-- A slot is the low or the high slot of its pair. -/
theorem slot_cases (k : Slot) : k = lowSlot (pairOf k) ∨ k = highSlot (pairOf k) := by revert k; decide

theorem counting_iff (c : Cfg) (w : Word) (p : Monitor) (e : Event) :
    counting c w p e = true ↔
      chained c w p = true ∧ slotCmd c w (lowSlot p) = .run e ∧ slotCmd c w (highSlot p) = .run e := by
  simp [counting, and_assoc]

theorem quiet_iff (c : Cfg) (w : Word) (p : Monitor) :
    quiet c w p = true ↔ ∀ k, pairOf k = p → NibCmd.active (slotCmd c w k) = false := by
  constructor
  · intro h k hk
    simp only [quiet, Bool.and_eq_true, Bool.not_eq_true'] at h
    obtain hl | hh := slot_cases k
    · rw [hl, hk]; exact h.1
    · rw [hh, hk]; exact h.2
  · intro h
    simp [quiet, h]

/-- The status of a pair depends on its two nibbles and its chain flag only. -/
theorem status_congr (c : Cfg) (w w' : Word) (p : Monitor) (hn : ∀ k, pairOf k = p → nib w k = nib w' k)
    (hc : chained c w p = chained c w' p) :
    (∀ e, counting c w p e = counting c w' p e) ∧ undefinedPair c w p = undefinedPair c w' p ∧ quiet c w p = quiet c w' p := by
  have hl := hn (lowSlot p) (pairOf_lowSlot p)
  have hh := hn (highSlot p) (pairOf_highSlot p)
  refine ⟨fun e => ?_, ?_, ?_⟩ <;> simp [counting, undefinedPair, quiet, slotCmd, hl, hh, hc]

theorem quiet_not_undefined (c : Cfg) (w : Word) (p : Monitor) (h : quiet c w p = true) : undefinedPair c w p = false := by
  simp only [quiet, Bool.and_eq_true, Bool.not_eq_true'] at h
  simp [undefinedPair, h.1, h.2]

theorem counting_not_undefined (c : Cfg) (w : Word) (p : Monitor) (e : Event) (h : counting c w p e = true) :
    undefinedPair c w p = false := by
  have : (allEvents.all fun e => !counting c w p e) = false := by
    rw [List.all_eq_false]
    exact ⟨e, mem_allEvents e, by simp [h]⟩
  simp [undefinedPair, this]

/-- A chain flag is a bit above the nibbles (clause w2). -/
theorem chained_congr (c : Cfg) (h : c.WF) (w w' : Word) (p : Monitor) (hw : ∀ i, 16 ≤ i → w.getLsbD i = w'.getLsbD i) :
    chained c w p = chained c w' p := by
  have h0 := h.2.1 c.fCh01 (by simp [Cfg.flagBits])
  have h1 := h.2.1 c.fCh23 (by simp [Cfg.flagBits])
  unfold chained
  rw [hw _ h0, hw _ h1]

theorem chained_install_pair (c : Cfg) (h : c.WF) (w : Word) (n : Nibble) (m p : Monitor) :
    chained c (install w (monMask m) (pairWord n m)) p = chained c w p :=
  chained_congr c h _ _ p fun i hi => getLsbD_install_pair_high w n m i hi

/-- The pair next to the one written keeps its status. -/
theorem status_install_other (c : Cfg) (h : c.WF) (w : Word) (n : Nibble) (m p : Monitor) (hp : p ≠ m) :
    (∀ e, counting c (install w (monMask m) (pairWord n m)) p e = counting c w p e) ∧
      undefinedPair c (install w (monMask m) (pairWord n m)) p = undefinedPair c w p ∧
      quiet c (install w (monMask m) (pairWord n m)) p = quiet c w p :=
  status_congr c _ _ p (fun k hk => by rw [nib_install_pair, if_neg (hk ▸ hp)]) (chained_install_pair c h w n m p)

theorem slotCmd_install_own (c : Cfg) (w : Word) (n : Nibble) (m : Monitor) (k : Slot) (hk : pairOf k = m) :
    slotCmd c (install w (monMask m) (pairWord n m)) k = nibCmd c n := by
  rw [slotCmd, nib_install_pair, if_pos hk]

theorem quiet_install_own (c : Cfg) (w : Word) (n : Nibble) (m : Monitor) (hn : NibCmd.active (nibCmd c n) = false) :
    quiet c (install w (monMask m) (pairWord n m)) m = true :=
  (quiet_iff c _ m).2 fun k hk => by rw [slotCmd_install_own c w n m k hk, hn]

theorem counting_install_own (c : Cfg) (h : c.WF) (w : Word) (n : Nibble) (m : Monitor) (e : Event) (hn : runOf c e = some n) :
    counting c (install w (monMask m) (pairWord n m)) m e = chained c w m := by
  simp [counting, slotCmd_install_own, chained_install_pair c h, nibCmd_run c h e n hn]

/-! ## The five flags -/

theorem flagsSet_iff (c : Cfg) (w : Word) : flagsSet c w = true ↔ ∀ b ∈ c.flagBits, w.getLsbD b.val = true := by
  rw [flagsSet, beq_iff_eq]
  constructor
  · intro h b hb
    have h' := congrArg (fun x => BitVec.getLsbD x b.val) h
    have hf : (flagsAll c).getLsbD b.val = true := by rw [flagsAll_getLsbD]; simpa using ⟨b, hb, rfl⟩
    simpa [hf] using h'
  · intro h
    apply BitVec.eq_of_getLsbD_eq
    intro i hi
    rw [BitVec.getLsbD_and, flagsAll_getLsbD]
    by_cases hb : ∃ b ∈ c.flagBits, i = b.val
    · obtain ⟨b, hb', rfl⟩ := hb
      simp [h b hb']
    · simp [hb]

theorem chained_of_flagsSet (c : Cfg) (w : Word) (p : Monitor) (h : flagsSet c w = true) : chained c w p = true := by
  rw [flagsSet_iff] at h
  simp only [chained]
  split
  · exact h _ (by simp [Cfg.flagBits])
  · exact h _ (by simp [Cfg.flagBits])

theorem flagsSet_install_pair (c : Cfg) (h : c.WF) (w : Word) (n : Nibble) (m : Monitor) :
    flagsSet c (install w (monMask m) (pairWord n m)) = flagsSet c w := by
  rw [Bool.eq_iff_iff, flagsSet_iff, flagsSet_iff]
  constructor <;> intro hw b hb
  · rw [← getLsbD_install_pair_high w n m _ (h.2.1 b hb)]; exact hw b hb
  · rw [getLsbD_install_pair_high w n m _ (h.2.1 b hb)]; exact hw b hb

theorem flagsSet_setupWord (c : Cfg) (h : c.WF) (w : Word) : flagsSet c (setupWord c w) = true := by
  rw [flagsSet_iff]
  intro b hb
  rw [setupWord_high c w _ (h.2.1 b hb), flagsAll_getLsbD]
  simpa using Or.inr ⟨b, hb, rfl⟩

theorem quiet_setupWord (c : Cfg) (h : c.WF) (w : Word) (p : Monitor) : quiet c (setupWord c w) p = true :=
  (quiet_iff c _ p).2 fun k _ => by rw [slotCmd, nib_setupWord c h, nibCmd_stop c h]; rfl

/-- The word at the end of SETUP, in the form R118 gives it. -/
theorem setup_end_word (c : Cfg) (h : c.WF) (w : Word) :
    install (install (setupWord c w) (monMask 0) (reset2 c 0)) (monMask 1) (reset2 c 1) =
      (w &&& rsvdMask c) ||| flagsAll c ||| reset2 c 0 ||| reset2 c 1 := by
  apply BitVec.eq_of_getLsbD_eq
  intro i hi
  by_cases h16 : i < 16
  · have hk : i / 4 < 4 := by omega
    have hj : i % 4 < 4 := by omega
    have hij : i = 4 * (⟨i / 4, hk⟩ : Slot).val + i % 4 := by simp; omega
    have hn : nib (install (install (setupWord c w) (monMask 0) (reset2 c 0)) (monMask 1) (reset2 c 1)) ⟨i / 4, hk⟩ = c.nibReset := by
      rw [reset2_eq, reset2_eq, nib_install_pair, nib_install_pair]
      have : pairOf ⟨i / 4, hk⟩ = 1 ∨ pairOf ⟨i / 4, hk⟩ = 0 := by
        generalize pairOf ⟨i / 4, hk⟩ = p
        revert p; decide
      obtain h1 | h1 := this <;> simp [h1]
    have hl := nib_getLsbD (install (install (setupWord c w) (monMask 0) (reset2 c 0)) (monMask 1) (reset2 c 1)) ⟨i / 4, hk⟩ (i % 4)
    rw [hn, ← hij] at hl
    simp only [hj, decide_true, Bool.true_and] at hl
    rw [← hl]
    simp only [rsvdMask, reset2, encReset, BitVec.getLsbD_or, BitVec.getLsbD_and, BitVec.getLsbD_not, hi, place_getLsbD,
      flagsAll_low c h i h16, decide_true, Bool.true_and]
    interval_cases i <;> simp [lowSlot, highSlot, BitVec.getLsbD_of_ge]
  · have h16' : 16 ≤ i := by omega
    rw [reset2_eq, reset2_eq, getLsbD_install_pair_high _ _ _ _ h16', getLsbD_install_pair_high _ _ _ _ h16', setupWord_high _ _ _ h16']
    have hz : ∀ m, (pairWord c.nibReset m).getLsbD i = false := by
      intro m
      have := m.isLt
      simp only [pairWord, BitVec.getLsbD_or, place_getLsbD, lowSlot, highSlot]
      rw [BitVec.getLsbD_of_ge _ _ (by omega), BitVec.getLsbD_of_ge _ _ (by omega)]
      simp
    simp only [rsvdMask, BitVec.getLsbD_or, BitVec.getLsbD_and, BitVec.getLsbD_not, hi, hz, decide_true, Bool.true_and,
      Bool.or_false]
    have hf : (0x0000FFFF#32).getLsbD i = false := by
      interval_cases i <;> decide
    rw [hf]
    cases (flagsAll c).getLsbD i <;> simp

/-! ## Sound and quiet control words -/

theorem monitor_cases (p : Monitor) : p = 0 ∨ p = 1 := by revert p; decide

theorem soundWord_of_quietWord (c : Cfg) (w : Word) (h : quietWord c w = true) : soundWord c w = true := by
  simp only [quietWord, Bool.and_eq_true] at h
  simp [soundWord, h.1.1, quiet_not_undefined _ _ _ h.1.2, quiet_not_undefined _ _ _ h.2]

/-- Writing one monitor's nibbles keeps a sound word sound, if the monitor itself is left defined. -/
theorem soundWord_install_pair (c : Cfg) (hc : c.WF) (w : Word) (n : Nibble) (m : Monitor) (h : soundWord c w = true)
    (hn : undefinedPair c (install w (monMask m) (pairWord n m)) m = false) :
    soundWord c (install w (monMask m) (pairWord n m)) = true := by
  simp only [soundWord, Bool.and_eq_true, Bool.not_eq_true'] at h ⊢
  have hu : ∀ p, undefinedPair c (install w (monMask m) (pairWord n m)) p = false := by
    intro p
    by_cases hp : p = m
    · rw [hp]; exact hn
    · rw [(status_install_other c hc w n m p hp).2.1]
      obtain rfl | rfl := monitor_cases p
      exacts [h.1.2, h.2]
  exact ⟨⟨by rw [flagsSet_install_pair c hc]; exact h.1.1, hu 0⟩, hu 1⟩

theorem quietWord_install_pair (c : Cfg) (hc : c.WF) (w : Word) (n : Nibble) (m : Monitor) (h : quietWord c w = true)
    (hn : NibCmd.active (nibCmd c n) = false) : quietWord c (install w (monMask m) (pairWord n m)) = true := by
  simp only [quietWord, Bool.and_eq_true] at h ⊢
  have hu : ∀ p, quiet c (install w (monMask m) (pairWord n m)) p = true := by
    intro p
    by_cases hp : p = m
    · rw [hp]; exact quiet_install_own _ _ _ _ hn
    · rw [(status_install_other c hc w n m p hp).2.2]
      obtain rfl | rfl := monitor_cases p
      exacts [h.1.2, h.2]
  exact ⟨⟨by rw [flagsSet_install_pair c hc]; exact h.1.1, hu 0⟩, hu 1⟩

theorem quietWord_setupWord (c : Cfg) (hc : c.WF) (w : Word) : quietWord c (setupWord c w) = true := by
  simp [quietWord, flagsSet_setupWord _ hc, quiet_setupWord _ hc]

end Sys2Proof.Machine
end

