-- ==== Sys2Proof/Laws/Ops.lean ====
section
/-! SUPPORT. One lemma for each shared operation: everything it can do, said once. -/

namespace Sys2Proof.Machine

/-! ## Outcomes -/

@[simp] theorem andThen_next (s : State) (f : State → Result) : andThen (.next s) f = f s := rfl

@[simp] theorem andThen_fault (e : Fault) (f : State → Result) : andThen (.fault e) f = .fault e := rfl

@[simp] theorem andThen_refused (e : Refusal) (f : State → Result) : andThen (.refused e) f = .refused e := rfl

/-- A sequence answers a next state only through a next state of its first part. -/
theorem andThen_eq_next {r : Result} {f : State → Result} {t : State} (h : andThen r f = .next t) :
    ∃ u, r = .next u ∧ f u = .next t := by
  cases r with
  | next u => exact ⟨u, rfl, h⟩
  | fault e => cases h
  | refused e => cases h

/-- A sequence faults in its first part or after it. -/
theorem andThen_eq_fault {r : Result} {f : State → Result} {e : Fault} (h : andThen r f = .fault e) :
    r = .fault e ∨ ∃ u, r = .next u ∧ f u = .fault e := by
  cases r with
  | next u => exact .inr ⟨u, rfl, h⟩
  | fault e' => exact .inl h
  | refused e' => cases h

/-! ## The counters -/

theorem resetCounters_get (c : Cfg) (w : Word) (pm : Vector Word 4) (k : Slot) :
    (resetCounters c w pm)[k] = if nib w k = c.nibReset then 0 else pm[k] := by
  fin_cases k <;> rfl

/-- Two counter files are equal when they agree at every slot. -/
theorem counters_ext (a b : Vector Word 4) (h : ∀ k : Slot, a[k] = b[k]) : a = b := by
  ext i hi
  have := h ⟨i, hi⟩
  simp only [Fin.getElem_fin] at this
  rw [this]

theorem set_get (pm : Vector Word 4) (k j : Slot) (v : Word) : (pm.set k v)[j] = if j = k then v else pm[j] := by
  simp only [Fin.getElem_fin]
  rw [Vector.getElem_set]
  by_cases h : k = j
  · subst h; simp
  · have hv : k.val ≠ j.val := fun h' => h (Fin.ext h')
    rw [if_neg hv, if_neg (Ne.symm h)]

theorem setPair_low (p : Monitor) (c : Count) (pm : Vector Word 4) :
    (setPair p c pm)[lowSlot p] = c.extractLsb' 0 32 := by
  rw [setPair, set_get, if_pos rfl]

theorem setPair_high (p : Monitor) (c : Count) (pm : Vector Word 4) :
    (setPair p c pm)[highSlot p] = c.extractLsb' 32 32 := by
  rw [setPair, set_get, if_neg (Ne.symm (lowSlot_ne_highSlot p p)), set_get, if_pos rfl]

theorem setPair_other (p : Monitor) (c : Count) (pm : Vector Word 4) (k : Slot) (hk : pairOf k ≠ p) :
    (setPair p c pm)[k] = pm[k] := by
  rw [setPair, set_get, if_neg (fun h => hk (by rw [h, pairOf_lowSlot])), set_get,
    if_neg (fun h => hk (by rw [h, pairOf_highSlot]))]

/-- A count is its two halves. -/
theorem halves_append (c : Count) : c.extractLsb' 32 32 ++ c.extractLsb' 0 32 = c := by
  apply BitVec.eq_of_getLsbD_eq
  intro i hi
  rw [BitVec.getLsbD_append]
  by_cases h : i < 32
  · simp [h]
  · simp only [BitVec.getLsbD_extractLsb']
    have h1 : i - 32 < 32 := by omega
    have h2 : 32 + (i - 32) = i := by omega
    simp [h, h1, h2]

/-- The number two halves make (R29, R44). -/
theorem append_toNat (hi lo : Word) : (hi ++ lo).toNat = hi.toNat * 2 ^ 32 + lo.toNat := by
  rw [BitVec.toNat_append, ← Nat.shiftLeft_add_eq_or_of_lt lo.isLt, Nat.shiftLeft_eq]

theorem high_toNat (c : Count) : (c.extractLsb' 32 32).toNat = c.toNat / 2 ^ 32 := by
  have := c.isLt
  rw [BitVec.extractLsb'_toNat, Nat.shiftRight_eq_div_pow]
  omega

theorem low_toNat (c : Count) : (c.extractLsb' 0 32).toNat = c.toNat % 2 ^ 32 := by
  simp [BitVec.extractLsb'_toNat]

/-- COUNT adds exactly one to its pair's count (R97). -/
theorem count_countPair (p : Monitor) (s : State) : count (countPair p s) p = count s p + 1 := by
  change (setPair p (count s p + 1) s.pm)[highSlot p] ++ (setPair p (count s p + 1) s.pm)[lowSlot p] = count s p + 1
  rw [setPair_low, setPair_high, halves_append]

theorem count_congr (s t : State) (p : Monitor) (h : ∀ k, pairOf k = p → t.pm[k] = s.pm[k]) : count t p = count s p := by
  unfold count
  rw [h _ (pairOf_lowSlot p), h _ (pairOf_highSlot p)]

/-- A PMC write whose nibble is not `NIB_RESET` leaves the counter; one whose is zeroes it (R95). -/
theorem wrPmc_pm_get (v : Word) (s : State) (k : Slot) :
    (wrPmc v s).pm[k] = if nib v k = s.cfg.nibReset then 0 else s.pm[k] := resetCounters_get _ _ _ _

/-- The two halves joined are the count (R132). -/
theorem combine_eq_append (hi lo : Word) : combine hi lo = hi ++ lo := by
  apply BitVec.eq_of_getLsbD_eq
  intro i h64
  rw [BitVec.getLsbD_append]
  simp only [combine, BitVec.getLsbD_or, BitVec.getLsbD_shiftLeft, BitVec.getLsbD_setWidth]
  by_cases h : i < 32
  · simp [h, h64]
  · have h1 : i - 32 < 64 := by omega
    simp [h, h64, h1, BitVec.getLsbD_of_ge lo i (by omega)]

/-- The two halves of a count, read back from it (R29). -/
theorem high_count (s : State) (m : Monitor) : s.pm[highSlot m] = (count s m).extractLsb' 32 32 := by
  apply BitVec.eq_of_toNat_eq
  rw [high_toNat, count, append_toNat]
  have := s.pm[lowSlot m].isLt
  omega

theorem low_count (s : State) (m : Monitor) : s.pm[lowSlot m] = (count s m).extractLsb' 0 32 := by
  apply BitVec.eq_of_toNat_eq
  rw [low_toNat, count, append_toNat]
  have := s.pm[lowSlot m].isLt
  omega

end Sys2Proof.Machine
end

