-- ==== Sys2Proof/Laws/Sequencer.lean ====
section
/-! SUPPORT. What one step of an agent can do, said once, and the induction over the moves an operation runs among, packaged once. -/

namespace Sys2Proof.Machine

/-- CNT's turn at a slot (R90 to R100): nothing, one COUNT of a counting pair, or one HAVOC of an undefined one. -/
theorem cntStep_cases {k : Slot} {s t : State} (h : cntStep k s = .next t) :
    t = s ∨ ((∃ e, counting s.cfg s.pmc (pairOf k) e = true) ∧ t = countPair (pairOf k) s) ∨
      (undefinedPair s.cfg s.pmc (pairOf k) = true ∧ t = havocPair (pairOf k) s) := by
  unfold cntStep at h
  split at h
  · next e _ =>
    simp only [execNibRun, Host.Outcome.next.injEq] at h
    split at h
    · next hc => exact .inr (.inl ⟨⟨e, hc⟩, h.symm⟩)
    · split at h
      · next hu => exact .inr (.inr ⟨hu, h.symm⟩)
      · exact .inl h.symm
  · cases h; exact .inl rfl
  · cases h; exact .inl rfl
  · next hr =>
    cases h
    refine .inr (.inr ⟨?_, rfl⟩)
    have hnc : ∀ e, counting s.cfg s.pmc (pairOf k) e = false := by
      intro e
      rw [Bool.eq_false_iff]
      intro hc
      rw [counting_iff] at hc
      obtain hk | hk := slot_cases k
      · rw [← hk, hr] at hc; simp at hc
      · rw [← hk, hr] at hc; simp at hc
    have ha : (NibCmd.active (slotCmd s.cfg s.pmc (lowSlot (pairOf k))) || NibCmd.active (slotCmd s.cfg s.pmc (highSlot (pairOf k)))) = true := by
      obtain hk | hk := slot_cases k
      · rw [← hk, hr]; rfl
      · rw [← hk, hr]; simp [NibCmd.active]
    simp [undefinedPair, ha, hnc]

/-- CNT does nothing in a quiet pair (R103). -/
theorem cntStep_quiet {k : Slot} {s : State} (h : quiet s.cfg s.pmc (pairOf k) = true) : cntStep k s = .next s := by
  have ha := (quiet_iff _ _ _).1 h k rfl
  unfold cntStep
  split <;> simp_all [NibCmd.active, execNibStop]

/-- CNT counts in a counting pair (R97). -/
theorem cntStep_counting {k : Slot} {e : Event} {s : State} (h : counting s.cfg s.pmc (pairOf k) e = true) :
    cntStep k s = .next (countPair (pairOf k) s) := by
  have hs : slotCmd s.cfg s.pmc k = .run e := by
    have h' := (counting_iff _ _ _ _).1 h
    obtain hk | hk := slot_cases k
    · rw [hk]; exact h'.2.1
    · rw [hk]; exact h'.2.2
  simp [cntStep, hs, execNibRun, h]

/-- CNT's turn always answers a next state. -/
theorem cntStep_next (k : Slot) (s : State) : ∃ t, cntStep k s = .next t := by
  unfold cntStep
  split <;> simp [execNibRun, execNibStop]

/-- What CNT's turn leaves: everything but the counters and the draws; and of the counters, those of the other pair and those of a quiet
pair (R103). -/
theorem cntStep_frame {k : Slot} {s t : State} (h : cntStep k s = .next t) :
    (∃ pm n, t = { s with pm := pm, drawn := n }) ∧
    (∀ j, pairOf j ≠ pairOf k → t.pm[j] = s.pm[j]) ∧
    (∀ j, quiet s.cfg s.pmc (pairOf j) = true → t.pm[j] = s.pm[j]) := by
  have other : ∀ j, pairOf j ≠ pairOf k → t.pm[j] = s.pm[j] := by
    intro j hj
    obtain rfl | ⟨-, rfl⟩ | ⟨-, rfl⟩ := cntStep_cases h
    · rfl
    · exact setPair_other _ _ _ j hj
    · rw [havocPair_pm, set_get, if_neg (fun h => hj (by rw [h, pairOf_highSlot])), set_get,
        if_neg (fun h => hj (by rw [h, pairOf_lowSlot]))]
  refine ⟨?_, other, fun j hj => ?_⟩
  · obtain rfl | ⟨-, rfl⟩ | ⟨-, rfl⟩ := cntStep_cases h
    exacts [⟨t.pm, t.drawn, rfl⟩, ⟨_, s.drawn, rfl⟩, ⟨_, _, rfl⟩]
  · by_cases hp : pairOf j = pairOf k
    · rw [hp] at hj
      rw [cntStep_quiet hj] at h
      cases h; rfl
    · exact other j hp

/-- What one SEQ step can do (R114 to R117, R130): one constructor for each phase, with the state it leaves. -/
inductive SeqEffect (s : State) : State → Prop where
  | idle (hp : s.pc = .idle) : SeqEffect s s
  | setupS0 (hp : s.pc = .setupS0) : SeqEffect s (goto .setupS1 (fetchPmc s))
  | setupS1 (hp : s.pc = .setupS1) : SeqEffect s (goto .setupS2 (storePmc (setupWord s.cfg s.xW) s))
  | setupS2 (hp : s.pc = .setupS2) : SeqEffect s (goto .setupS3 (fetchPmc s))
  | setupS3 (hp : s.pc = .setupS3) :
    SeqEffect s (goto .setupS4 (storePmc (install s.xW (monMask 0) (reset2 s.cfg 0)) s))
  | setupS4 (hp : s.pc = .setupS4) : SeqEffect s (goto .setupS5 (fetchPmc s))
  | setupS5 (hp : s.pc = .setupS5) :
    SeqEffect s { goto .idle (storePmc (install s.xW (monMask 1) (reset2 s.cfg 1)) s) with setupDone := true }
  | startT0 (hp : s.pc = .startT0) : SeqEffect s (goto .startT1 (fetchPmc s))
  | startT1 (hp : s.pc = .startT1) (m : Monitor) (hm : monitorOf s.xM = some m) :
    SeqEffect s (goto .startT2 (storePmc (install s.xW (monMask m) (reset2 s.cfg m)) s))
  | startT2 (hp : s.pc = .startT2) (m : Monitor) (hm : monitorOf s.xM = some m) (e : Event) (he : eventOf s.cfg s.xE = some e)
    (v : Word) (hv : start2 s.cfg m e = some v) : SeqEffect s (succeed (storePmc (install s.xW (monMask m) v) s))
  | stopP0 (hp : s.pc = .stopP0) : SeqEffect s (goto .stopP1 (fetchPmc s))
  | stopP1 (hp : s.pc = .stopP1) (m : Monitor) (hm : monitorOf s.xM = some m) :
    SeqEffect s (succeed (storePmc (install s.xW (monMask m) (stop2 s.cfg m)) s))
  | readR0 (hp : s.pc = .readR0) (m : Monitor) (hm : monitorOf s.xM = some m) :
    SeqEffect s (goto .readR1 (fetchHigh (highSlot m) s))
  | readR1 (hp : s.pc = .readR1) (m : Monitor) (hm : monitorOf s.xM = some m) :
    SeqEffect s { fetchLow (lowSlot m) s with value := combine s.xHI s.pm[lowSlot m], pc := .idle }

/-- Everything a SEQ step can do is one of these. -/
theorem seqStep_effect {s t : State} (h : seqStep s = .next t) : SeqEffect s t := by
  unfold seqStep at h
  split at h
  case h_1 hp => cases h; exact .idle hp
  case h_2 hp => cases h; exact .setupS0 hp
  case h_3 hp => cases h; exact .setupS1 hp
  case h_4 hp => cases h; exact .setupS2 hp
  case h_5 hp => cases h; exact .setupS3 hp
  case h_6 hp => cases h; exact .setupS4 hp
  case h_7 hp => cases h; exact .setupS5 hp
  case h_8 hp => cases h; exact .startT0 hp
  case h_9 hp =>
    unfold startT1 at h
    split at h
    case h_1 m hm => cases h; exact .startT1 hp m hm
    case h_2 => cases h
  case h_10 hp =>
    unfold startT2 at h
    split at h
    case h_1 m e hm he =>
      split at h
      case h_1 v hv => cases h; exact .startT2 hp m hm e he v hv
      case h_2 => cases h
    case h_2 => cases h
  case h_11 hp => cases h; exact .stopP0 hp
  case h_12 hp =>
    unfold stopP1 at h
    split at h
    case h_1 m hm => cases h; exact .stopP1 hp m hm
    case h_2 => cases h
  case h_13 hp =>
    unfold readR0 at h
    split at h
    case h_1 m hm => cases h; exact .readR0 hp m hm
    case h_2 => cases h
  case h_14 hp =>
    unfold readR1 at h
    split at h
    case h_1 m hm => cases h; exact .readR1 hp m hm
    case h_2 => cases h

/-! ## The step of each phase, forward -/

theorem seqStep_setupS0 {s : State} (h : s.pc = .setupS0) : seqStep s = .next (goto .setupS1 (fetchPmc s)) := by
  rw [seqStep, h]; rfl

theorem seqStep_setupS1 {s : State} (h : s.pc = .setupS1) :
    seqStep s = .next (goto .setupS2 (storePmc (setupWord s.cfg s.xW) s)) := by
  rw [seqStep, h]; rfl

theorem seqStep_setupS2 {s : State} (h : s.pc = .setupS2) : seqStep s = .next (goto .setupS3 (fetchPmc s)) := by
  rw [seqStep, h]; rfl

theorem seqStep_setupS3 {s : State} (h : s.pc = .setupS3) :
    seqStep s = .next (goto .setupS4 (storePmc (install s.xW (monMask 0) (reset2 s.cfg 0)) s)) := by
  rw [seqStep, h]; rfl

theorem seqStep_setupS4 {s : State} (h : s.pc = .setupS4) : seqStep s = .next (goto .setupS5 (fetchPmc s)) := by
  rw [seqStep, h]; rfl

theorem seqStep_setupS5 {s : State} (h : s.pc = .setupS5) :
    seqStep s = .next { goto .idle (storePmc (install s.xW (monMask 1) (reset2 s.cfg 1)) s) with setupDone := true } := by
  rw [seqStep, h]; rfl

theorem seqStep_startT0 {s : State} (h : s.pc = .startT0) : seqStep s = .next (goto .startT1 (fetchPmc s)) := by
  rw [seqStep, h]; rfl

theorem seqStep_startT1 {s : State} {m : Monitor} (h : s.pc = .startT1) (hm : monitorOf s.xM = some m) :
    seqStep s = .next (goto .startT2 (storePmc (install s.xW (monMask m) (reset2 s.cfg m)) s)) := by
  rw [seqStep, h]; simp only [startT1, hm]; rfl

theorem seqStep_startT2 {s : State} {m : Monitor} {e : Event} {v : Word} (h : s.pc = .startT2) (hm : monitorOf s.xM = some m)
    (he : eventOf s.cfg s.xE = some e) (hv : start2 s.cfg m e = some v) :
    seqStep s = .next (succeed (storePmc (install s.xW (monMask m) v) s)) := by
  rw [seqStep, h]; simp only [startT2, hm, he, hv]

theorem seqStep_stopP0 {s : State} (h : s.pc = .stopP0) : seqStep s = .next (goto .stopP1 (fetchPmc s)) := by
  rw [seqStep, h]; rfl

theorem seqStep_stopP1 {s : State} {m : Monitor} (h : s.pc = .stopP1) (hm : monitorOf s.xM = some m) :
    seqStep s = .next (succeed (storePmc (install s.xW (monMask m) (stop2 s.cfg m)) s)) := by
  rw [seqStep, h]; simp only [stopP1, hm]

theorem seqStep_readR0 {s : State} {m : Monitor} (h : s.pc = .readR0) (hm : monitorOf s.xM = some m) :
    seqStep s = .next (goto .readR1 (fetchHigh (highSlot m) s)) := by
  rw [seqStep, h]; simp only [readR0, hm]

theorem seqStep_readR1 {s : State} {m : Monitor} (h : s.pc = .readR1) (hm : monitorOf s.xM = some m) :
    seqStep s = .next { fetchLow (lowSlot m) s with value := combine s.xHI s.pm[lowSlot m], pc := .idle } := by
  rw [seqStep, h]; simp only [readR1, hm]; rfl

/-- A SEQ step leaves the configuration, the schedule, the draws and the codec's answer. -/
theorem seqStep_frame {s t : State} (h : seqStep s = .next t) :
    t.cfg = s.cfg ∧ t.schedule = s.schedule ∧ t.drawn = s.drawn ∧ t.codecOut = s.codecOut := by
  cases seqStep_effect h <;> exact ⟨rfl, rfl, rfl, rfl⟩

/-- A codec call answers on `codecOut` only. -/
theorem codecStep_cases {w : BitVec 8} {s t : State} (h : codecStep w s = .next t) : ∃ v, t = answer v s := by
  unfold codecStep at h
  split at h
  all_goals simp only [execMask, execEncStart, execEncStop, execEncReset] at h
  · cases h; exact ⟨_, rfl⟩
  · split at h
    · cases h; exact ⟨_, rfl⟩
    · cases h
  · cases h; exact ⟨_, rfl⟩
  · cases h; exact ⟨_, rfl⟩

/-- No agent's step changes the configuration or the schedule. -/
theorem agentStep_frame {mv : Move} {s t : State} (h : agentStep mv s = .next t) : t.cfg = s.cfg ∧ t.schedule = s.schedule := by
  cases mv with
  | seq => exact ⟨(seqStep_frame h).1, (seqStep_frame h).2.1⟩
  | cnt k =>
    obtain rfl | ⟨-, rfl⟩ | ⟨-, rfl⟩ := cntStep_cases h
    all_goals exact ⟨rfl, rfl⟩
  | codec w => obtain ⟨v, rfl⟩ := codecStep_cases h; exact ⟨rfl, rfl⟩
  | extWrite v => cases h; exact ⟨rfl, rfl⟩
  | extRead => cases h; exact ⟨rfl, rfl⟩
  | hwReset => cases h; exact ⟨rfl, rfl⟩
  | pause => cases h; exact ⟨rfl, rfl⟩
  | caller w => cases h
  | internal w => cases h

/-! ## Running an operation -/

/-- What every SEQ step keeps, `finish` keeps. -/
theorem finish_keeps {P : State → Prop} (hseq : ∀ s t, P s → seqStep s = .next t → P t) (n : Nat) :
    ∀ s t, P s → finish n s = .next t → P t := by
  induction n with
  | zero => intro s t hs h; cases h; exact hs
  | succ n ih =>
    intro s t hs h
    unfold finish at h
    split at h
    · cases h; exact hs
    · obtain ⟨u, hu, hf⟩ := andThen_eq_next h
      exact ih u t (hseq s u hs hu) hf

/-- What every SEQ step and every scheduled move keeps, and does not depend on the schedule, an operation keeps. -/
theorem runOp_keeps {P : State → Prop} (hsched : ∀ s l, P s → P { s with schedule := l })
    (hseq : ∀ s t, P s → seqStep s = .next t → P t) (l : List Move)
    (hmv : ∀ mv ∈ l, ∀ s t, P s → agentStep mv s = .next t → P t) :
    ∀ s t, P s → runOp l s = .next t → P t := by
  induction l with
  | nil => intro s t hs h; exact finish_keeps hseq 6 _ _ (hsched _ _ hs) h
  | cons mv rest ih =>
    intro s t hs h
    unfold runOp at h
    split at h
    · cases h; exact hsched _ _ hs
    · split at h
      · cases h; exact hsched _ _ hs
      · obtain ⟨u, hu, hf⟩ := andThen_eq_next h
        exact ih (fun mv' hmem => hmv mv' (List.mem_cons_of_mem _ hmem)) u t (hmv mv (List.mem_cons_self ..) s u hs hu) hf

/-- The same for RESETM between and including its write. -/
theorem resetmTail_keeps {P : State → Prop} (hsched : ∀ s l, P s → P { s with schedule := l }) (m : Monitor)
    (hw : ∀ s, P s → P (resetmWrite m s)) (l : List Move)
    (hmv : ∀ mv ∈ l, ∀ s t, P s → agentStep mv s = .next t → P t) :
    ∀ s t, P s → resetmTail m l s = .next t → P t := by
  induction l with
  | nil => intro s t hs h; cases h; exact hw _ (hsched _ _ hs)
  | cons mv rest ih =>
    intro s t hs h
    unfold resetmTail at h
    split at h
    · cases h; exact hw _ (hsched _ _ hs)
    · split at h
      · next hr => cases h; exact hmv mv (List.mem_cons_self ..) _ _ (hsched s rest hs) (by rw [hr]; rfl)
      · obtain ⟨u, hu, hf⟩ := andThen_eq_next h
        exact ih (fun mv' hmem => hmv mv' (List.mem_cons_of_mem _ hmem)) u t (hmv mv (List.mem_cons_self ..) s u hs hu) hf

theorem finish_schedule (n : Nat) (s t : State) (h : finish n s = .next t) : t.schedule = s.schedule :=
  finish_keeps (P := fun u => u.schedule = s.schedule) (fun _ _ hu hv => (seqStep_frame hv).2.1.trans hu) n s t rfl h

/-- An operation uses up a first part of its moves: what it leaves scheduled is a rest of them. -/
theorem runOp_schedule (l : List Move) : ∀ s t, runOp l s = .next t → t.schedule <:+ l := by
  induction l with
  | nil => intro s t h; rw [finish_schedule 6 _ t h]
  | cons mv rest ih =>
    intro s t h
    unfold runOp at h
    split at h
    · cases h; exact List.suffix_rfl
    · split at h
      · cases h; exact List.suffix_cons mv rest
      · obtain ⟨u, -, hf⟩ := andThen_eq_next h
        exact (ih u t hf).trans (List.suffix_cons mv rest)

theorem resetmTail_schedule (m : Monitor) (l : List Move) : ∀ s t, resetmTail m l s = .next t → t.schedule <:+ l := by
  induction l with
  | nil => intro s t h; cases h; exact List.suffix_rfl
  | cons mv rest ih =>
    intro s t h
    unfold resetmTail at h
    split at h
    · cases h; exact List.suffix_cons mv rest
    · split at h
      · cases h; exact List.suffix_cons mv rest
      · obtain ⟨u, -, hf⟩ := andThen_eq_next h
        exact (ih u t hf).trans (List.suffix_cons mv rest)

/-- At IDLE an operation is over, whatever is scheduled. -/
theorem runOp_idle (l : List Move) (s : State) (h : s.pc = .idle) : runOp l s = .next { s with schedule := l } := by
  cases l with
  | nil => simp [runOp, finish, h]
  | cons mv rest => simp [runOp, h]

/-- One move of an operation in progress. -/
theorem runOp_cons (mv : Move) (rest : List Move) (s : State) (h : s.pc ≠ .idle) (hp : mv ≠ .pause) :
    runOp (mv :: rest) s = andThen (agentStep mv s) (runOp rest) := by
  rw [runOp, if_neg h, if_neg hp]

end Sys2Proof.Machine
end

