-- ==== Sys2Proof/Laws/Commands.lean ====
section
/-! SUPPORT. What a command and a step can do: one inversion lemma for each meaning of the CMD rows, for the port, and for `step`. -/

namespace Sys2Proof.Machine

theorem execSetup_cases {s t : State} (h : execSetup s = .next t) : s.pc = .idle ∧ runOp s.schedule (goto .setupS0 s) = .next t := by
  unfold execSetup at h
  split at h
  · next hi => exact ⟨hi, h⟩
  · cases h

theorem execStart_cases {mon ev : Word} {s t : State} (h : execStart mon ev s = .next t) :
    s.pc = .idle ∧
      ((t = fail s.cfg.stEinval { s with xM := mon, xE := ev } ∧ (monitorOf mon = none ∨ eventOf s.cfg ev = none)) ∨
       (∃ m e, monitorOf mon = some m ∧ eventOf s.cfg ev = some e ∧
        runOp s.schedule (goto .startT0 { s with xM := mon, xE := ev }) = .next t)) := by
  unfold execStart at h
  split at h
  · next hi =>
    refine ⟨hi, ?_⟩
    cases hm : monitorOf mon with
    | none => rw [hm] at h; cases h; exact .inl ⟨rfl, .inl rfl⟩
    | some m =>
      cases he : eventOf s.cfg ev with
      | none => rw [hm, he] at h; cases h; exact .inl ⟨rfl, .inr rfl⟩
      | some e => rw [hm, he] at h; exact .inr ⟨m, e, rfl, rfl, h⟩
  · cases h

theorem execStop_cases {mon : Word} {s t : State} (h : execStop mon s = .next t) :
    s.pc = .idle ∧
      ((t = fail s.cfg.stEinval { s with xM := mon } ∧ monitorOf mon = none) ∨
       (∃ m, monitorOf mon = some m ∧ runOp s.schedule (goto .stopP0 { s with xM := mon }) = .next t)) := by
  unfold execStop at h
  split at h
  · next hi =>
    refine ⟨hi, ?_⟩
    cases hm : monitorOf mon with
    | none => rw [hm] at h; cases h; exact .inl ⟨rfl, rfl⟩
    | some m => rw [hm] at h; exact .inr ⟨m, rfl, h⟩
  · cases h

theorem execRead_cases {mon : Word} {s t : State} (h : execRead mon s = .next t) :
    s.pc = .idle ∧
      ((t = { s with xM := mon, value := readSentinel } ∧ monitorOf mon = none) ∨
       (∃ m, monitorOf mon = some m ∧ runOp s.schedule (goto .readR0 { s with xM := mon }) = .next t)) := by
  unfold execRead at h
  split at h
  · next hi =>
    refine ⟨hi, ?_⟩
    cases hm : monitorOf mon with
    | none => rw [hm] at h; cases h; exact .inl ⟨rfl, rfl⟩
    | some m => rw [hm] at h; exact .inr ⟨m, rfl, h⟩
  · cases h

/-- What CALLER's word can start (R68 to R70). -/
theorem presentCaller_cases {w : BitVec 67} {s t : State} (h : presentCaller w s = .next t) :
    execSetup { s with xM := cwMon w, xE := cwEv w } = .next t ∨
    execStart (cwMon w) (cwEv w) { s with xM := cwMon w, xE := cwEv w } = .next t ∨
    execStop (cwMon w) { s with xM := cwMon w, xE := cwEv w } = .next t ∨
    execRead (cwMon w) { s with xM := cwMon w, xE := cwEv w } = .next t := by
  unfold presentCaller at h
  split at h
  · cases h
  · next h4 =>
    unfold decodeCmd at h
    split at h
    · next i hd =>
      split at hd
      · cases hd; exact .inl h
      · cases hd; exact .inr (.inl h)
      · cases hd; exact .inr (.inr (.inl h))
      · cases hd; exact .inr (.inr (.inr h))
      · next hop => exact absurd (BitVec.eq_of_toNat_eq (by rw [hop]; rfl)) h4
      · cases hd
    · cases h

/-- What SEQ's internal path can start: RESETM. -/
theorem presentInternal_cases {w : BitVec 67} {s t : State} (h : presentInternal w s = .next t) :
    ∃ m, execResetm m s = .next t := by
  unfold presentInternal at h
  split at h
  · next h4 =>
    unfold decodeCmd at h
    rw [h4] at h
    cases hm : monitorOf (cwMon w) with
    | none => simp [hm] at h
    | some m => rw [show (4 : BitVec 3).toNat = 4 from rfl, hm] at h; exact ⟨m, h⟩
  · cases h

/-- The codec's request path is its meaning as an instruction. -/
theorem exec_decodeCodec (w : BitVec 8) (s : State) : exec (decodeCodec w) s = codecStep w s := by
  unfold decodeCodec codecStep
  generalize (cqFn w).toNat = n
  match n with
  | 0 => rfl
  | 1 => rfl
  | 2 => rfl
  | _ + 3 => rfl

/-- Everything a step can do. -/
theorem step_cases {s t : State} (h : step s = .next t) :
    (s.pc ≠ .idle ∧ runOp s.schedule s = .next t) ∨
    (s.pc = .idle ∧ s.schedule = [] ∧ t = s) ∨
    (s.pc = .idle ∧ ∃ mv rest, s.schedule = mv :: rest ∧
      ((∃ w, mv = .caller w ∧ presentCaller w { s with schedule := rest } = .next t) ∨
       (∃ w, mv = .internal w ∧ presentInternal w { s with schedule := rest } = .next t) ∨
       agentStep mv { s with schedule := rest } = .next t)) := by
  unfold step at h
  split at h
  · next hi =>
    cases hl : s.schedule with
    | nil => rw [hl] at h; cases h; exact .inr (.inl ⟨hi, rfl, rfl⟩)
    | cons mv rest =>
      rw [hl] at h
      refine .inr (.inr ⟨hi, mv, rest, rfl, ?_⟩)
      cases mv with
      | caller w => exact .inl ⟨w, rfl, h⟩
      | internal w => exact .inr (.inl ⟨w, rfl, h⟩)
      | codec w => exact .inr (.inr (by rw [nextMove, exec_decodeCodec] at h; exact h))
      | seq => exact .inr (.inr h)
      | cnt k => exact .inr (.inr h)
      | extWrite v => exact .inr (.inr h)
      | extRead => exact .inr (.inr h)
      | hwReset => exact .inr (.inr h)
      | pause => exact .inr (.inr h)
  · next hi => exact .inl ⟨hi, h⟩

end Sys2Proof.Machine
end

