-- ==== Sys2Proof/Laws/PerInstr.lean ====
section
/-! SUPPORT. Statements for all instructions, one lemma for each constructor: what the opcode table's row fixes in an instruction's word. -/

namespace Sys2Proof.Laws.TableRow

open Sys2Proof.Machine

/-- The `op` of a CMD row (R69). -/
def opOf : Instr → Option (BitVec 3)
  | .setup => some 0
  | .start _ _ => some 1
  | .stop _ => some 2
  | .read _ => some 3
  | .resetm _ => some 4
  | .mask _ | .encStart _ _ | .encStop _ | .encReset _ | .nibRun _ _ | .nibStop _ | .nibReset _ => none

/-- The `fn` of a CODEC row (R72). -/
def fnOf : Instr → Option (BitVec 2)
  | .mask _ => some 0
  | .encStart _ _ => some 1
  | .encStop _ => some 2
  | .encReset _ => some 3
  | .setup | .start _ _ | .stop _ | .read _ | .resetm _ | .nibRun _ _ | .nibStop _ | .nibReset _ => none

/-- The slot a NIB row's word lies in: the operand (R22). -/
def slotOf : Instr → Option Slot
  | .nibRun k _ | .nibStop k | .nibReset k => some k
  | .setup | .start _ _ | .stop _ | .read _ | .resetm _ | .mask _ | .encStart _ _ | .encStop _ | .encReset _ => none

/-- A word is of the row's format and has the row's selector. -/
def Fits (i : Instr) : EncWord → Prop
  | .cmd w => opOf i = some (cwOp w)
  | .codec w => fnOf i = some (cqFn w)
  | .nib k _ => slotOf i = some k

/-- Every word of the instruction fits its row of the table, under every configuration. -/
def Statement (i : Instr) : Prop := ∀ (c : Cfg) (w : EncWord), encode c i = some w → Fits i w

theorem setup : Statement .setup := by
  intro c w h; cases h; simp [Fits, opOf]

theorem start (mon ev : Word) : Statement (.start mon ev) := by
  intro c w h; cases h; simp [Fits, opOf]

theorem stop (mon : Word) : Statement (.stop mon) := by
  intro c w h; cases h; simp [Fits, opOf]

theorem read (mon : Word) : Statement (.read mon) := by
  intro c w h; cases h; simp [Fits, opOf]

theorem resetm (m : Monitor) : Statement (.resetm m) := by
  intro c w h; cases h; simp [Fits, opOf]

theorem mask (k : Slot) : Statement (.mask k) := by
  intro c w h; cases h; simp [Fits, fnOf]

theorem encStart (k : Slot) (ev : Event) : Statement (.encStart k ev) := by
  intro c w h; cases h; simp [Fits, fnOf]

theorem encStop (k : Slot) : Statement (.encStop k) := by
  intro c w h; cases h; simp [Fits, fnOf]

theorem encReset (k : Slot) : Statement (.encReset k) := by
  intro c w h; cases h; simp [Fits, fnOf]

theorem nibRun (k : Slot) (ev : Event) : Statement (.nibRun k ev) := by
  intro c w h
  obtain ⟨n, -, rfl⟩ := Option.map_eq_some_iff.1 (show (runOf c ev).map (EncWord.nib k) = some w from h)
  rfl

theorem nibStop (k : Slot) : Statement (.nibStop k) := by
  intro c w h; cases h; rfl

theorem nibReset (k : Slot) : Statement (.nibReset k) := by
  intro c w h; cases h; rfl

end Sys2Proof.Laws.TableRow
end

