-- ==== Sys2Proof/Laws/Running.lean ====
section
/-! SUPPORT. Operations run to their end: packaged once, for operations under the premise EXCL (R49). -/

namespace Sys2Proof.Machine

/-- How many SEQ steps an operation still needs (R52: six at most). -/
def Phase.left : Phase → Nat
  | .idle => 0
  | .setupS0 => 6
  | .setupS1 => 5
  | .setupS2 => 4
  | .setupS3 => 3
  | .setupS4 => 2
  | .setupS5 => 1
  | .startT0 => 3
  | .startT1 => 2
  | .startT2 => 1
  | .stopP0 => 2
  | .stopP1 => 1
  | .readR0 => 2
  | .readR1 => 1

theorem Phase.left_le (p : Phase) : p.left ≤ 6 := by cases p <;> decide

theorem Phase.left_eq_zero (p : Phase) (h : p.left = 0) : p = .idle := by cases p <;> first | rfl | (revert h; decide)

/-- Every SEQ step of an operation brings it one step nearer to its end. -/
theorem seqStep_left {s t : State} (h : seqStep s = .next t) : t.pc.left = s.pc.left - 1 := by
  cases seqStep_effect h <;> simp [*, goto, succeed, Phase.left]

/-- `finish` reaches IDLE when every SEQ step answers a next state. -/
theorem finish_total {Q : State → Prop} (hseq : ∀ s, Q s → s.pc ≠ .idle → ∃ t, seqStep s = .next t ∧ Q t) (n : Nat) :
    ∀ s, Q s → s.pc.left ≤ n → ∃ t, finish n s = .next t ∧ Q t ∧ t.pc = .idle := by
  induction n with
  | zero => intro s hs hl; exact ⟨s, rfl, hs, Phase.left_eq_zero _ (Nat.le_zero.1 hl)⟩
  | succ n ih =>
    intro s hs hl
    by_cases hi : s.pc = .idle
    · exact ⟨s, by rw [finish, if_pos hi], hs, hi⟩
    · obtain ⟨u, hu, hq⟩ := hseq s hs hi
      obtain ⟨t, ht, htq, hti⟩ := ih u hq (by rw [seqStep_left hu]; omega)
      exact ⟨t, by rw [finish, if_neg hi, hu, andThen_next, ht], htq, hti⟩

/-- A codec request within its precondition is answered (R80, R82). -/
theorem codecStep_wf {w : BitVec 8} {s : State} (hc : s.cfg.WF) (h : (decodeCodec w).wf s.cfg = true) :
    ∃ v, codecStep w s = .next (answer v s) := by
  rw [← exec_decodeCodec]
  cases hd : decodeCodec w with
  | encStart k e =>
    rw [hd] at h
    obtain ⟨n, hn⟩ := Option.isSome_iff_exists.1 ((runOf_isSome s.cfg hc e).trans h)
    exact ⟨place n k, by simp [exec, execEncStart, encStart, hn]⟩
  | mask k => exact ⟨_, rfl⟩
  | encStop k => exact ⟨_, rfl⟩
  | encReset k => exact ⟨_, rfl⟩
  | setup | start _ _ | stop _ | read _ | resetm _ | nibRun _ _ | nibStop _ | nibReset _ =>
    exfalso
    unfold decodeCodec at hd
    split at hd <;> cases hd

/-! ## The moves an operation runs among -/

@[simp] theorem noExt_zero (l : List Move) : noExt 0 l = true := by cases l <;> rfl
@[simp] theorem unbroken_zero (c : Cfg) (l : List Move) : Unbroken c 0 l = true := by cases l <;> rfl
@[simp] theorem afterAccesses_zero (l : List Move) : afterAccesses 0 l = l := by cases l <;> rfl
@[simp] theorem turns_zero (p : Monitor) (l : List Move) : turns p 0 l = 0 := by cases l <;> rfl

@[simp] theorem noExt_seq (n : Nat) (l : List Move) : noExt (n + 1) (.seq :: l) = noExt n l := rfl
@[simp] theorem unbroken_seq (c : Cfg) (n : Nat) (l : List Move) : Unbroken c (n + 1) (.seq :: l) = Unbroken c n l := rfl
@[simp] theorem afterAccesses_seq (n : Nat) (l : List Move) : afterAccesses (n + 1) (.seq :: l) = afterAccesses n l := rfl
@[simp] theorem turns_seq (p : Monitor) (n : Nat) (l : List Move) : turns p (n + 1) (.seq :: l) = turns p n l := rfl

theorem pmcAfter_cons (w : Word) (mv : Move) (l : List Move) : pmcAfter w (mv :: l) = pmcAfter (pmcAfter w [mv]) l := by
  cases mv <;> rfl

theorem takeWhile_before (mv : Move) (l : List Move) (h : mv ≠ .seq) :
    (mv :: l).takeWhile (· != .seq) = mv :: l.takeWhile (· != .seq) := by
  simp [h]

theorem dropWhile_before (mv : Move) (l : List Move) (h : mv ≠ .seq) :
    (mv :: l).dropWhile (· != .seq) = l.dropWhile (· != .seq) := by
  simp [h]

/-- Up to the first access the moves are ones that can fall between two accesses. -/
theorem unbroken_before (c : Cfg) (n : Nat) (l : List Move) (h : Unbroken c (n + 1) l = true) :
    (∀ mv ∈ l.takeWhile (· != .seq), mv.between c = true) ∧ Unbroken c (n + 1) (l.dropWhile (· != .seq)) = true := by
  induction l with
  | nil => exact ⟨by simp, rfl⟩
  | cons mv l ih =>
    by_cases hm : mv = .seq
    · subst hm
      exact ⟨by simp, h⟩
    · simp only [Unbroken, if_neg hm, Bool.and_eq_true] at h
      rw [takeWhile_before mv l hm, dropWhile_before mv l hm]
      exact ⟨List.forall_mem_cons.2 ⟨h.1, (ih h.2).1⟩, (ih h.2).2⟩

theorem afterAccesses_drop (n : Nat) (l : List Move) :
    afterAccesses (n + 1) (l.dropWhile (· != .seq)) = afterAccesses (n + 1) l := by
  induction l with
  | nil => rfl
  | cons mv l ih =>
    by_cases hm : mv = .seq
    · subst hm; rfl
    · rw [dropWhile_before mv l hm, ih, afterAccesses, if_neg hm]

/-- EXT stays out from the start, so under EXCL too, and PMC is at the first access what it was. -/
theorem exclusive_of_noExt (n : Nat) (l : List Move) (h : noExt (n + 1) l = true) :
    Exclusive (n + 1) l = true ∧ ∀ w, pmcAtFirst w l = w := by
  induction l with
  | nil => exact ⟨rfl, fun _ => rfl⟩
  | cons mv l ih =>
    by_cases hm : mv = .seq
    · subst hm
      exact ⟨h, fun _ => rfl⟩
    · simp only [noExt, if_neg hm, Bool.and_eq_true, Bool.not_eq_true'] at h
      obtain ⟨h1, h2⟩ := ih h.2
      refine ⟨?_, fun w => ?_⟩
      · rw [Exclusive, dropWhile_before mv l hm]; exact h1
      · rw [pmcAtFirst, takeWhile_before mv l hm, pmcAfter_cons]
        have hw : pmcAfter w [mv] = w := by cases mv <;> first | rfl | cases h.1
        rw [hw]; exact h2 w

/-- What every SEQ step of an operation in progress keeps, `finish` keeps. -/
theorem finish_keeps_of_ne_idle {P : State → Prop} (hseq : ∀ s t, P s → s.pc ≠ .idle → seqStep s = .next t → P t) (n : Nat) :
    ∀ s t, P s → finish n s = .next t → P t := by
  induction n with
  | zero => intro s t hs h; cases h; exact hs
  | succ n ih =>
    intro s t hs h
    unfold finish at h
    split at h
    case isTrue => cases h; exact hs
    case isFalse hi =>
      obtain ⟨u, hu, hf⟩ := andThen_eq_next h
      exact ih u t (hseq s u hs hi hu) hf

/-- A move that can fall between two accesses answers a next state, and changes PMC only as EXT writes it, the counters, the draws and the
codec's answer. -/
theorem agentStep_between {mv : Move} {s : State} (hc : s.cfg.WF) (h : mv.between s.cfg = true) :
    ∃ pm n v, agentStep mv s = .next { s with pmc := pmcAfter s.pmc [mv], pm := pm, drawn := n, codecOut := v } := by
  cases mv with
  | cnt k =>
    obtain ⟨t, ht⟩ := cntStep_next k s
    obtain ⟨⟨pm, n, rfl⟩, -⟩ := cntStep_frame ht
    exact ⟨pm, n, s.codecOut, ht⟩
  | extWrite v => exact ⟨_, s.drawn, s.codecOut, rfl⟩
  | extRead => exact ⟨s.pm, s.drawn, s.codecOut, rfl⟩
  | codec w =>
    obtain ⟨v, hv⟩ := codecStep_wf (s := s) hc h
    exact ⟨s.pm, s.drawn, v, hv⟩
  | seq | caller _ | internal _ | hwReset | pause => cases h

/-- The moves of one window between two port accesses. -/
theorem runOp_between (l : List Move) : ∀ (s : State) (r : List Move), s.cfg.WF → s.pc ≠ .idle → (∀ mv ∈ l, mv.between s.cfg = true) →
    ∃ pm n v, runOp (l ++ r) s = runOp r { s with pmc := pmcAfter s.pmc l, pm := pm, drawn := n, codecOut := v } := by
  induction l with
  | nil => intro s r _ _ _; exact ⟨s.pm, s.drawn, s.codecOut, rfl⟩
  | cons mv l ih =>
    intro s r hc hp hl
    have hmv := hl mv (List.mem_cons_self ..)
    obtain ⟨pm, n, v, h⟩ := agentStep_between hc hmv
    have hpause : mv ≠ .pause := by rintro rfl; cases hmv
    obtain ⟨pm', n', v', h'⟩ := ih { s with pmc := pmcAfter s.pmc [mv], pm := pm, drawn := n, codecOut := v } r hc hp
      (fun m hm => hl m (List.mem_cons_of_mem _ hm))
    refine ⟨pm', n', v', ?_⟩
    rw [List.cons_append, runOp_cons _ _ _ hp hpause, h, andThen_next, h', pmcAfter_cons s.pmc mv l]

/-- The moves before the first access: an operation at its first phase goes on from the PMC it finds there. -/
theorem runOp_first (l : List Move) (s : State) (hc : s.cfg.WF) (hp : s.pc ≠ .idle) (he : Exclusive s.pc.left l = true)
    (hu : Unbroken s.cfg s.pc.left l = true) :
    ∃ pm n v r, runOp l s = runOp r { s with pmc := pmcAtFirst s.pmc l, pm := pm, drawn := n, codecOut := v } ∧
      noExt s.pc.left r = true ∧ Unbroken s.cfg s.pc.left r = true ∧ afterAccesses s.pc.left r = afterAccesses s.pc.left l := by
  have hl : l.takeWhile (· != .seq) ++ l.dropWhile (· != .seq) = l := List.takeWhile_append_dropWhile
  have hn : ∃ n, s.pc.left = n + 1 := Nat.exists_eq_succ_of_ne_zero fun h0 => hp (Phase.left_eq_zero _ h0)
  obtain ⟨n, hn⟩ := hn
  have hb := unbroken_before s.cfg n l (hn ▸ hu)
  obtain ⟨pm, d, v, h⟩ := runOp_between (l.takeWhile (· != .seq)) s (l.dropWhile (· != .seq)) hc hp hb.1
  rw [hl] at h
  refine ⟨pm, d, v, _, h, he, ?_, ?_⟩
  · rw [hn]; exact hb.2
  · rw [hn]; exact afterAccesses_drop n l

/-- Under EXCL an operation reaches its end, from its first access on: if every SEQ step, every turn of CNT and every codec answer keeps Q,
so does the operation, at IDLE, with the moves after its last access left. -/
theorem runOp_exclusive {Q : State → Prop} (hsched : ∀ s l, Q s → Q { s with schedule := l })
    (hseq : ∀ s, Q s → s.pc ≠ .idle → ∃ t, seqStep s = .next t ∧ Q t)
    (hcnt : ∀ k s t, Q s → s.pc ≠ .idle → cntStep k s = .next t → Q t) (hcodec : ∀ v s, Q s → Q (answer v s)) (l : List Move) :
    ∀ s, Q s → s.cfg.WF → noExt s.pc.left l = true → Unbroken s.cfg s.pc.left l = true →
      ∃ t, runOp l s = .next t ∧ Q t ∧ t.pc = .idle ∧ t.schedule = afterAccesses s.pc.left l := by
  induction l with
  | nil =>
    intro s hs hc hx hu
    obtain ⟨t, ht, hq, hi⟩ := finish_total hseq 6 _ (hsched s [] hs) (Phase.left_le _)
    exact ⟨t, ht, hq, hi, by rw [finish_schedule 6 _ t ht]; cases s.pc.left <;> rfl⟩
  | cons mv rest ih =>
    intro s hs hc hx hu
    by_cases hi : s.pc = .idle
    · exact ⟨_, runOp_idle _ _ hi, hsched _ _ hs, hi, by rw [hi]; rfl⟩
    · obtain ⟨n, hn⟩ := Nat.exists_eq_succ_of_ne_zero fun h0 => hi (Phase.left_eq_zero _ h0)
      rw [hn] at hx hu ⊢
      by_cases hm : mv = .seq
      · subst hm
        obtain ⟨u, hu', hq⟩ := hseq s hs hi
        have hl : u.pc.left = n := by rw [seqStep_left hu', hn]; rfl
        have hcf := (seqStep_frame hu').1
        obtain ⟨t, ht, h⟩ := ih u hq (by rw [hcf]; exact hc) (by rw [hl]; exact hx) (by rw [hl, hcf]; exact hu)
        rw [hl] at h
        exact ⟨t, by rw [runOp_cons _ _ _ hi (by simp), show agentStep .seq s = seqStep s from rfl, hu', andThen_next, ht], h⟩
      · simp only [noExt, Unbroken, afterAccesses, if_neg hm, Bool.and_eq_true, Bool.not_eq_true'] at hx hu ⊢
        have hstep : ∃ u, agentStep mv s = .next u ∧ Q u ∧ u.pc = s.pc ∧ u.cfg = s.cfg := by
          cases mv with
          | cnt k =>
            obtain ⟨u, hk⟩ := cntStep_next k s
            refine ⟨u, hk, hcnt k s u hs hi hk, ?_⟩
            obtain ⟨⟨pm, d, rfl⟩, -⟩ := cntStep_frame hk
            exact ⟨rfl, rfl⟩
          | codec w =>
            obtain ⟨v, hv⟩ := codecStep_wf (s := s) hc hu.1
            exact ⟨answer v s, hv, hcodec v s hs, rfl, rfl⟩
          | extWrite _ | extRead => cases hx.1
          | seq | caller _ | internal _ | hwReset | pause => cases hu.1
        obtain ⟨u, hu', hq, hpc, hcf⟩ := hstep
        obtain ⟨t, ht, h⟩ := ih u hq (by rw [hcf]; exact hc) (by rw [hpc, hn]; exact hx.2) (by rw [hpc, hcf, hn]; exact hu.2)
        rw [hpc, hn] at h
        refine ⟨t, ?_, h⟩
        rw [runOp_cons mv rest s hi (by rintro rfl; cases hu.1), hu', andThen_next, ht]

/-- The count of a pair that counts through an operation without an EXT step: one for each turn of CNT, none from the SEQ steps. -/
theorem runOp_turns {Q : State → Prop} (p : Monitor) (hsched : ∀ s l, Q s → Q { s with schedule := l })
    (hseq : ∀ s, Q s → s.pc ≠ .idle → ∃ t, seqStep s = .next t ∧ Q t ∧ count t p = count s p)
    (hcnt : ∀ k s t, Q s → s.pc ≠ .idle → cntStep k s = .next t → Q t) (hcodec : ∀ v s, Q s → Q (answer v s))
    (hcounts : ∀ s, Q s → s.pc ≠ .idle → ∃ e, counting s.cfg s.pmc p e = true) (l : List Move) :
    ∀ s t, Q s → s.cfg.WF → noExt s.pc.left l = true → Unbroken s.cfg s.pc.left l = true → runOp l s = .next t →
      count t p = count s p + BitVec.ofNat 64 (turns p s.pc.left l) := by
  induction l with
  | nil =>
    intro s t hs _ _ _ h
    have h0 : turns p s.pc.left [] = 0 := by cases s.pc.left <;> rfl
    rw [h0]
    have hk := finish_keeps_of_ne_idle (P := fun u => Q u ∧ count u p = count s p) (fun u v hu hi hv => by
      obtain ⟨v', hv', hq, hc⟩ := hseq u hu.1 hi
      rw [hv] at hv'
      cases hv'
      exact ⟨hq, hc.trans hu.2⟩) 6 _ t ⟨hsched s [] hs, rfl⟩ h
    rw [hk.2]; simp
  | cons mv rest ih =>
    intro s t hs hc hx hu h
    by_cases hi : s.pc = .idle
    · rw [runOp_idle _ _ hi] at h
      cases h
      rw [hi]
      show count s p = count s p + 0#64
      simp
    · obtain ⟨n, hn⟩ := Nat.exists_eq_succ_of_ne_zero fun h0 => hi (Phase.left_eq_zero _ h0)
      rw [hn] at hx hu ⊢
      by_cases hm : mv = .seq
      · subst hm
        obtain ⟨u, hu', hq, hcu⟩ := hseq s hs hi
        have hl : u.pc.left = n := by rw [seqStep_left hu', hn]; rfl
        have hcf := (seqStep_frame hu').1
        rw [runOp_cons _ _ _ hi (by simp), show agentStep .seq s = seqStep s from rfl, hu', andThen_next] at h
        have := ih u t hq (by rw [hcf]; exact hc) (by rw [hl]; exact hx) (by rw [hl, hcf]; exact hu) h
        rw [this, hl, hcu]
        rfl
      · simp only [noExt, Unbroken, if_neg hm, Bool.and_eq_true, Bool.not_eq_true'] at hx hu
        rw [runOp_cons mv rest s hi (by rintro rfl; cases hu.1)] at h
        cases mv with
        | cnt k =>
          obtain ⟨u, hk⟩ := cntStep_next k s
          obtain ⟨e, he⟩ := hcounts s hs hi
          have hq := hcnt k s u hs hi hk
          rw [show agentStep (.cnt k) s = cntStep k s from rfl, hk, andThen_next] at h
          obtain ⟨⟨pm, d, rfl⟩, hother, -⟩ := cntStep_frame hk
          have := ih _ t hq hc (by rw [hn]; exact hx.2) (by rw [hn]; exact hu.2) h
          rw [this]
          show _ + BitVec.ofNat 64 (turns p s.pc.left rest) = _ + BitVec.ofNat 64 ((if pairOf k = p then 1 else 0) + turns p (n + 1) rest)
          rw [hn]
          by_cases hkp : pairOf k = p
          · subst hkp
            rw [cntStep_counting he] at hk
            have hcp := count_countPair (pairOf k) s
            rw [Host.Outcome.next.inj hk] at hcp
            rw [hcp, if_pos rfl, BitVec.ofNat_add, BitVec.add_assoc]
            rfl
          · rw [count_congr s _ p (fun j hj => hother j (fun h' => hkp (h' ▸ hj))), if_neg hkp, Nat.zero_add]
        | codec w =>
          obtain ⟨v, hv⟩ := codecStep_wf (s := s) hc hu.1
          rw [show agentStep (.codec w) s = codecStep w s from rfl, hv, andThen_next] at h
          have := ih (answer v s) t (hcodec v s hs) hc (by show noExt s.pc.left rest = true; rw [hn]; exact hx.2)
            (by show Unbroken s.cfg s.pc.left rest = true; rw [hn]; exact hu.2) h
          rw [this]
          show _ + BitVec.ofNat 64 (turns p s.pc.left rest) = _
          rw [hn]
          rfl
        | extWrite _ | extRead => cases hx.1
        | seq | caller _ | internal _ | hwReset | pause => cases hu.1

/-- n turns of CNT in a counting pair, while an operation is in progress: its count goes up by n, nothing else changes (R97). -/
theorem runOp_counts (m : Monitor) (e : Event) (n : Nat) : ∀ (s : State) (l : List Move),
    counting s.cfg s.pmc m e = true → s.pc ≠ .idle →
    ∃ pm, runOp (List.replicate n (.cnt (lowSlot m)) ++ l) s = runOp l { s with pm := pm } ∧
      count { s with pm := pm } m = count s m + BitVec.ofNat 64 n := by
  induction n with
  | zero => intro s l _ _; exact ⟨s.pm, rfl, by simp⟩
  | succ n ih =>
    intro s l hc hp
    rw [List.replicate_succ, List.cons_append, runOp_cons _ _ _ hp (by simp)]
    have hstep : agentStep (.cnt (lowSlot m)) s = .next (countPair m s) := by
      have := cntStep_counting (k := lowSlot m) (e := e) (s := s) (by simpa using hc)
      rw [pairOf_lowSlot] at this
      exact this
    rw [hstep, andThen_next]
    obtain ⟨pm, h1, h2⟩ := ih (countPair m s) l hc hp
    refine ⟨pm, h1, ?_⟩
    change count { countPair m s with pm := pm } m = _
    rw [h2, count_countPair, BitVec.add_assoc, BitVec.ofNat_add, BitVec.add_comm (BitVec.ofNat 64 n)]
    rfl

/-- RESETM between its two accesses (R114): the moves up to SEQ's next turn, then the write, from the word read. -/
theorem resetmTail_between (m : Monitor) (l : List Move) : ∀ (s : State) (r : List Move), s.cfg.WF →
    (∀ mv ∈ l, mv.between s.cfg = true) → ∃ pm n v, resetmTail m (l ++ .seq :: r) s =
      .next (resetmWrite m { s with pmc := pmcAfter s.pmc l, pm := pm, drawn := n, codecOut := v, schedule := r }) := by
  induction l with
  | nil => intro s r _ _; exact ⟨s.pm, s.drawn, s.codecOut, rfl⟩
  | cons mv l ih =>
    intro s r hc hl
    have hmv := hl mv (List.mem_cons_self ..)
    obtain ⟨pm, n, v, h⟩ := agentStep_between hc hmv
    obtain ⟨pm', n', v', h'⟩ := ih { s with pmc := pmcAfter s.pmc [mv], pm := pm, drawn := n, codecOut := v } r hc
      (fun m hm => hl m (List.mem_cons_of_mem _ hm))
    refine ⟨pm', n', v', ?_⟩
    rw [List.cons_append, resetmTail, if_neg (by rintro rfl; cases hmv), if_neg (by rintro rfl; cases hmv), h, andThen_next, h',
      pmcAfter_cons s.pmc mv l]

/-- The same under EXCL: what CNT's turns and codec answers keep holds when the write comes, and a counting pair has one count for each of
its turns. -/
theorem resetmTail_exclusive {Q : State → Prop} (m : Monitor) (hsched : ∀ s l, Q s → Q { s with schedule := l })
    (hcnt : ∀ k s t, Q s → cntStep k s = .next t → Q t) (hcodec : ∀ v s, Q s → Q (answer v s)) (l : List Move) :
    ∀ s, Q s → s.cfg.WF → noExt 1 l = true → Unbroken s.cfg 1 l = true →
      ∃ u, resetmTail m l s = .next (resetmWrite m u) ∧ Q u ∧ u.pmc = s.pmc ∧ u.cfg = s.cfg ∧ u.schedule = afterAccesses 1 l ∧
        ∀ p e, counting s.cfg s.pmc p e = true → count u p = count s p + BitVec.ofNat 64 (turns p 1 l) := by
  induction l with
  | nil =>
    intro s hs _ _ _
    refine ⟨_, rfl, hsched s [] hs, rfl, rfl, rfl, fun p _ _ => ?_⟩
    show count s p = count s p + 0#64
    simp
  | cons mv rest ih =>
    intro s hs hc hx hu
    by_cases hm : mv = .seq
    · subst hm
      refine ⟨_, rfl, hsched s rest hs, rfl, rfl, (afterAccesses_zero rest).symm, fun p _ _ => ?_⟩
      rw [show turns p 1 (.seq :: rest) = turns p 0 rest from rfl, turns_zero]
      show count s p = count s p + 0#64
      simp
    · simp only [noExt, Unbroken, afterAccesses, if_neg hm, Bool.and_eq_true, Bool.not_eq_true'] at hx hu ⊢
      have hreset : mv ≠ .hwReset := by rintro rfl; cases hu.1
      rw [resetmTail, if_neg hm, if_neg hreset]
      cases mv with
      | cnt k =>
        obtain ⟨t, hk⟩ := cntStep_next k s
        have hq := hcnt k s t hs hk
        rw [show agentStep (.cnt k) s = cntStep k s from rfl, hk, andThen_next]
        obtain ⟨⟨pm, d, rfl⟩, hother, -⟩ := cntStep_frame hk
        obtain ⟨u, h1, h2, h3, h4, h5, h6⟩ := ih _ hq hc hx.2 hu.2
        refine ⟨u, h1, h2, h3, h4, h5, fun p e he => ?_⟩
        rw [h6 p e he]
        show _ = _ + BitVec.ofNat 64 ((if pairOf k = p then 1 else 0) + turns p 1 rest)
        by_cases hkp : pairOf k = p
        · subst hkp
          rw [cntStep_counting he] at hk
          have hcp := count_countPair (pairOf k) s
          rw [Host.Outcome.next.inj hk] at hcp
          rw [hcp, if_pos rfl, BitVec.ofNat_add, BitVec.add_assoc]
          rfl
        · rw [count_congr s _ p (fun j hj => hother j (fun h' => hkp (h' ▸ hj))), if_neg hkp, Nat.zero_add]
      | codec w =>
        obtain ⟨v, hv⟩ := codecStep_wf (s := s) hc hu.1
        rw [show agentStep (.codec w) s = codecStep w s from rfl, hv, andThen_next]
        exact ih (answer v s) (hcodec v s hs) hc hx.2 hu.2
      | extWrite _ | extRead => cases hx.1
      | seq | caller _ | internal _ | hwReset | pause => cases hu.1

end Sys2Proof.Machine
end

