-- ==== Sys2Proof/Tests/Slice0.lean ====
section
/-! SUPPORT. The model's own tests. Expected results are the vectors V-… and the programs P… of 95_test_vectors.md, and words written out from the
field tables of 30_encoding.md. The second half shows, for each statement with hypotheses, a state that meets them. -/

namespace Sys2Proof.Tests

open Sys2Proof.Machine

/-- A small state: configuration, PMC, counters and schedule as given, the rest zero. -/
def st (c : Cfg) (pmc : Word) (pm : Vector Word 4) (l : List Move) : State where
  pmc := pmc
  pm := pm
  xM := 0
  xE := 0
  xW := 0
  xHI := 0
  xLO := 0
  pc := .idle
  status := 7
  value := 9
  setupDone := false
  cfg := c
  schedule := l
  drawn := 0
  codecOut := 0
  trace := []

/-- The outcome is a next state with p. -/
def onNext (r : Result) (p : State → Bool) : Bool :=
  match r with
  | .next t => p t
  | .fault _ | .refused _ => false

/-- The outcome is this refusal. -/
def isRefused (r : Result) (e : Refusal) : Bool :=
  match r with
  | .refused e' => e' == e
  | .next _ | .fault _ => false

/-- One step of the machine on a command word under CFG_REF, with these moves after it. -/
def run1 (pmc : Word) (pm : Vector Word 4) (w : BitVec 67) (l : List Move) : Result := step (st cfgRef pmc pm (.caller w :: l))

/-! ## Well-formedness and decoding -/

theorem test_wf_refuses_encStart_14 : Instr.wf cfgRef (.encStart 2 14) = false := by decide
theorem test_wf_refuses_nibRun_14 : Instr.wf cfgRef (.nibRun 0 14) = false := by decide
theorem test_wf_alt_refuses_0_and_13 : Instr.wf cfgAlt (.encStart 0 0) = false ∧ Instr.wf cfgAlt (.nibRun 0 13) = false := by decide
theorem test_wf_accepts : Instr.wf cfgRef (.encStart 3 13) = true ∧ Instr.wf cfgAlt (.nibRun 0 1) = true := by decide

/-- R68, R69: `op` 66:64, `mon` 63:32, `ev` 31:0. -/
theorem test_decode_cmd :
    decodeCmd 0x00000000000000000#67 = .ok .setup ∧
    decodeCmd 0x10000000100000005#67 = .ok (.start 1 5) ∧
    decodeCmd 0x1FFFFFFFF00000063#67 = .ok (.start 0xFFFFFFFF 99) ∧
    decodeCmd 0x200000000DEADBEEF#67 = .ok (.stop 0) ∧
    decodeCmd 0x30000010000000000#67 = .ok (.read 0x100) ∧
    decodeCmd 0x40000000100000000#67 = .ok (.resetm 1) := by decide

/-- R70, R114. -/
theorem test_decode_cmd_rejects :
    decodeCmd 0x50000000000000000#67 = .error (.reservedOp 5) ∧ decodeCmd 0x70000000100000005#67 = .error (.reservedOp 7) ∧
    decodeCmd 0x40000000200000000#67 = .error (.resetmMonitor 2) := by decide

/-- R72: `fn` 7:6, `slot` 5:4, `ev4` 3:0; MASK's `ev4` is ignored (V-C19). -/
theorem test_decode_codec :
    decodeCodec 0x2F#8 = .mask 2 ∧ decodeCodec 0x55#8 = .encStart 1 5 ∧ decodeCodec 0xA0#8 = .encStop 2 ∧
    decodeCodec 0xD0#8 = .encReset 1 := by decide

/-- R62, R90 under CFG_REF and CFG_ALT (V-A section: 0x2 and 0xF are reserved there). -/
theorem test_decode_nib :
    decodeNib cfgRef 3 0xD = .ok (.nibRun 3 13) ∧ decodeNib cfgRef 2 0xE = .ok (.nibStop 2) ∧
    decodeNib cfgRef 1 0xF = .ok (.nibReset 1) ∧ decodeNib cfgAlt 0 0x3 = .ok (.nibRun 0 1) ∧
    decodeNib cfgAlt 0 0x2 = .error (.reservedNibble 2) ∧ decodeNib cfgAlt 0 0xF = .error (.reservedNibble 15) := by decide

theorem test_encode :
    encode cfgRef (.start 1 13) = some (.cmd 0x1000000010000000D#67) ∧ encode cfgRef (.encStart 3 13) = some (.codec 0x7D#8) ∧
    encode cfgAlt (.nibRun 2 12) = some (.nib 2 0xE) ∧ encode cfgAlt (.nibRun 2 0) = none := by decide

/-! ## The Register Codec (2.1) -/

theorem test_mask : onNext (exec (.mask 2) (st cfgRef 0 #v[0, 0, 0, 0] [])) (fun t => t.codecOut == 0x00000F00) = true := by decide
theorem test_encStart : onNext (exec (.encStart 3 13) (st cfgRef 0 #v[0, 0, 0, 0] [])) (fun t => t.codecOut == 0x0000D000) = true := by decide
theorem test_encStart_zero_nibble :
    onNext (exec (.encStart 0 0) (st cfgRef 0 #v[0, 0, 0, 0] [])) (fun t => t.codecOut == 0) = true := by decide
theorem test_encStart_refused : isRefused (exec (.encStart 2 14) (st cfgRef 0 #v[0, 0, 0, 0] [])) .codecPrecondition = true := by decide
theorem test_encStop : onNext (exec (.encStop 1) (st cfgRef 0 #v[0, 0, 0, 0] [])) (fun t => t.codecOut == 0x000000E0) = true := by decide
theorem test_encReset : onNext (exec (.encReset 3) (st cfgRef 0 #v[0, 0, 0, 0] [])) (fun t => t.codecOut == 0x0000F000) = true := by decide

/-- The derived pair words under 2.1's table. -/
theorem test_pair_words :
    monMask 1 = 0x0000FF00 ∧ stop2 cfgRef 0 = 0x000000EE ∧ reset2 cfgRef 1 = 0x0000FF00 ∧ start2 cfgRef 1 13 = some 0x0000DD00 ∧
    stopAll cfgRef = 0x0000EEEE ∧ flagsAll cfgRef = 0x001F0000 ∧ rsvdMask cfgRef = 0xFFE00000 ∧ flagsAll cfgAlt = 0xC7000000 ∧
    rsvdMask cfgAlt = 0x38FF0000 := by decide

/-! ## Status predicates (2.2) -/

theorem test_status :
    counting cfgRef 0x001F55EE 1 5 = true ∧ quiet cfgRef 0x001F55EE 0 = true ∧          -- V-N3
    quiet cfgRef 0x001FEFFE 0 = true ∧ undefinedPair cfgRef 0x001EFF00 0 = true ∧       -- V-N6, V-N7
    quiet cfgRef 0x001DFF55 1 = true ∧ undefinedPair cfgRef 0x001F5300 1 = true ∧       -- V-N8, V-N9
    undefinedPair cfgRef 0x001F5E00 1 = true ∧ undefinedPair cfgRef 0 0 = true ∧        -- V-N10, V-N11
    undefinedPair cfgAlt 0x00F02222 1 = true ∧ counting cfgAlt 0xC700EE33 0 1 = true := by decide

/-! ## A PMC write and the counters' steps (2.3, 2.4) -/

theorem test_write_zeroes : (wrPmc 0x0000F00F (st cfgRef 0 #v[1, 2, 3, 4] [])).pm = #v[0, 2, 3, 0] := by decide  -- V-W5
theorem test_write_run_keeps : (wrPmc 0x001F0F55 (st cfgRef 0 #v[1, 2, 3, 4] [])).pm = #v[1, 2, 0, 4] := by decide  -- V-W6

theorem test_nibRun_carry :  -- V-K4
    onNext (exec (.nibRun 0 0) (st cfgRef 0x001FFF00 #v[0xFFFFFFFF, 0, 0x55, 0x66] [])) (fun t => t.pm == #v[0, 1, 0x55, 0x66]) = true := by decide
theorem test_nibRun_wrap :  -- V-K5
    onNext (exec (.nibRun 1 0) (st cfgRef 0x001FFF00 #v[0xFFFFFFFF, 0xFFFFFFFF, 0x55, 0x66] []))
      (fun t => t.pm == #v[0, 0, 0x55, 0x66]) = true := by decide
theorem test_cnt_quiet :  -- V-K6
    onNext (step (st cfgRef 0x001FFF00 #v[1, 2, 3, 4] [.cnt 2])) (fun t => t.pm == #v[1, 2, 3, 4] && t.drawn == 0) = true := by decide
theorem test_cnt_undefined_havoc :  -- V-N10
    onNext (step (st cfgRef 0x001F5E00 #v[1, 2, 3, 4] [.cnt 3])) (fun t => t.pm[0] == 1 && t.pm[1] == 2 && t.drawn == 2) = true := by decide
theorem test_nibStop : onNext (exec (.nibStop 2) (st cfgRef 0x001FEEEE #v[1, 2, 3, 4] [])) (fun t => t.pm == #v[1, 2, 3, 4]) = true := by decide
theorem test_nibReset : onNext (exec (.nibReset 2) (st cfgRef 0x001FEFEE #v[1, 2, 3, 4] [])) (fun t => t.pm == #v[1, 2, 0, 4]) = true := by decide

/-! ## The controller (2.5, 2.8) and READ (2.6) -/

theorem test_setup :  -- V-O2
    onNext (run1 0xABCD1234 #v[1, 2, 3, 4] 0x00000000000000000#67 []) (fun t =>
      t.trace == [.wrPmc 0xABDFFFFF, .rdPmc 0xABDFEEFF, .wrPmc 0xABDFEEFF, .rdPmc 0xABDFEEEE, .wrPmc 0xABDFEEEE, .rdPmc 0xABCD1234] &&
      t.pm == #v[0, 0, 0, 0] && t.setupDone && t.status == 7) = true := by decide
theorem test_setup_alt :  -- V-A1
    onNext (step (st cfgAlt 0 #v[1, 2, 3, 4] [.caller 0x00000000000000000#67])) (fun t =>
      t.trace == [.wrPmc 0xC7001111, .rdPmc 0xC7000011, .wrPmc 0xC7000011, .rdPmc 0xC7000000, .wrPmc 0xC7000000, .rdPmc 0]) = true := by decide
theorem test_start :  -- V-O7
    onNext (run1 0x001F55EE #v[1, 2, 3, 4] 0x1000000010000000D#67 []) (fun t =>
      t.trace == [.wrPmc 0x001FDDEE, .wrPmc 0x001FFFEE, .rdPmc 0x001F55EE] && t.pm == #v[1, 2, 0, 0] && t.status == 0) = true := by decide
theorem test_start_alt :  -- V-A3
    onNext (step (st cfgAlt 0xC7001133 #v[1, 2, 3, 4] [.caller 0x1000000010000000C#67])) (fun t => t.pmc == 0xC700EE33 && t.status == 0) = true := by decide
theorem test_stop :  -- V-O11
    onNext (run1 0xABDF1234 #v[1, 2, 3, 4] 0x20000000100000000#67 []) (fun t =>
      t.trace == [.wrPmc 0xABDFEE34, .rdPmc 0xABDF1234] && t.pm == #v[1, 2, 3, 4] && t.status == 0) = true := by decide
theorem test_resetm :  -- V-O13
    onNext (step (st cfgRef 0x001F5500 #v[1, 2, 3, 4] [.internal 0x40000000100000000#67])) (fun t =>
      t.pmc == 0x001FFF00 && t.pm == #v[1, 2, 0, 0] && t.xW == 0x001F5500 && t.status == 7) = true := by decide
theorem test_read :  -- V-R2
    onNext (run1 0x001FEEEE #v[0x89ABCDEF, 0x01234567, 0x11111111, 0x22222222] 0x30000000000000000#67 []) (fun t =>
      t.value == 0x0123456789ABCDEF && t.trace == [.rdPm 0 0x89ABCDEF, .rdPm 1 0x01234567]) = true := by decide
theorem test_read_carry_race :  -- V-R5
    onNext (run1 0x001FFF00 #v[0xFFFFFFFF, 4, 0, 0] 0x30000000000000000#67 [.seq, .cnt 0, .seq]) (fun t =>
      t.value == 0x0000000400000000 && t.pm == #v[0, 5, 0, 0]) = true := by decide

/-! ## Errors and refusals (2.7) -/

theorem test_start_invalid_event :  -- V-E9
    onNext (run1 0x001F5500 #v[3, 0, 2, 0] 0x10000000000000010#67 []) (fun t =>
      t.trace == [] && t.pmc == 0x001F5500 && t.pm == #v[3, 0, 2, 0] && t.status == 0xFFFFFFEA && t.pc == .idle) = true := by decide
theorem test_stop_invalid_monitor :  -- V-E5
    onNext (run1 0x001F5500 #v[3, 0, 2, 0] 0x28000000000000000#67 []) (fun t => t.trace == [] && t.status == 0xFFFFFFEA) = true := by decide
theorem test_read_invalid_monitor :  -- V-R12
    onNext (run1 0x001FEEEE #v[1, 2, 3, 4] 0x30000010000000000#67 []) (fun t => t.trace == [] && t.value == 0xFFFFFFFFFFFFFFFF && t.status == 7) = true := by decide
theorem test_alt_invalid_events :  -- V-A5, V-A6
    onNext (step (st cfgAlt 0xC700EE00 #v[0, 0, 0, 0] [.caller 0x10000000000000000#67])) (fun t => t.status == 0xFFFFFFFF) = true ∧
    onNext (step (st cfgAlt 0xC700EE00 #v[0, 0, 0, 0] [.caller 0x1000000000000000D#67])) (fun t => t.status == 0xFFFFFFFF) = true := by decide
theorem test_op5_refused : isRefused (run1 0x001F5500 #v[3, 0, 2, 0] 0x50000000000000000#67 []) (.undecodable (.reservedOp 5)) = true := by decide  -- V-X1
theorem test_resetm_from_caller_refused : isRefused (run1 0x001F5500 #v[3, 0, 2, 0] 0x40000000000000000#67 []) .internalOp = true := by decide  -- V-X3
theorem test_busy_refused :  -- V-X4
    isRefused (run1 0x001F5500 #v[3, 0, 2, 0] 0x10000000000000000#67 [.seq, .caller 0x00000000000000000#67]) .busy = true := by decide

/-! ## Interleavings (P4, P6) -/

theorem test_lost_update_stop :  -- P4, steps 3 to 6
    onNext (run1 0x001FFF00 #v[7, 0, 0, 0] 0x20000000000000000#67 [.seq, .extWrite 0x001F5500, .cnt 2, .cnt 2, .cnt 0, .seq]) (fun t =>
      t.pmc == 0x001FFFEE && t.pm == #v[8, 0, 0, 0] && t.status == 0) = true := by decide
theorem test_lost_update_start :  -- P6
    onNext (run1 0x001FFFEE #v[0, 0, 0, 0] 0x10000000100000002#67 [.seq, .seq, .extWrite 0x001FFF11, .seq]) (fun t => t.pmc == 0x001F22EE) = true := by decide

/-- A pause ends the model's step with the operation in progress, and the next step goes on with it (log 3). -/
theorem test_pause :
    onNext (run1 0x001F5500 #v[3, 0, 2, 0] 0x20000000000000000#67 [.seq, .pause, .seq]) (fun t =>
      t.pc == .stopP1 && t.pmc == 0x001F5500 && onNext (step t) (fun u => u.pmc == 0x001F55EE && u.pc == .idle)) = true := by decide

/-! ## A table word placed for the next step -/

theorem test_placed_start :
    onNext (step (State.reset.withFetchWord 72 0x1000000010000000D)) (fun t => t.pc == .idle && t.status == 0 && t.xE == 13) = true := by decide
theorem test_placed_nibbles :
    onNext (step ((st cfgRef 0 #v[1, 2, 3, 4] []).withFetchWord 4 0x5)) (fun t => t.pm == #v[2, 2, 3, 4]) = true ∧
    onNext (step ((st cfgRef 0 #v[1, 2, 3, 4] []).withFetchWord 4 0xF)) (fun t => t.pm == #v[0, 2, 3, 4]) = true := by decide

/-! ## Witnesses: for each statement with hypotheses a state and operands that meet them, at the ends of their ranges, one for each clause -/

/-- Both monitors stopped, flags set; both running; monitor 0 on event 0 and monitor 1 stopped. -/
def quietState (l : List Move) : State := st cfgRef 0x001FEEEE #v[1, 2, 3, 4] l
def runningState (l : List Move) : State := st cfgRef 0x001F5500 #v[1, 2, 3, 4] l

/-- An operation in progress: this phase, monitor 1, event 13. -/
def inPhase (p : Phase) (l : List Move) : State := { quietState l with pc := p, xM := 1, xE := 13, xW := 0x001FEEEE }

theorem witness_DecodeEncodeAgree : cfgRef.WF ∧ Instr.wf cfgRef (.encStart 0 0) = true ∧ Instr.wf cfgRef (.encStart 3 13) = true ∧
    cfgAlt.WF ∧ Instr.wf cfgAlt (.nibRun 0 1) = true ∧ Instr.wf cfgAlt (.nibRun 3 12) = true :=
  ⟨cfgRef_wf, by decide, by decide, cfgAlt_wf, by decide, by decide⟩

theorem witness_NibbleDecodesToOneCommand : decodeNib cfgRef 0 0 = .ok (.nibRun 0 0) ∧ decodeNib cfgRef 3 15 = .ok (.nibReset 3) := by decide

theorem witness_ReservedOpsRefused : (quietState [.caller 0x40000000000000000#67]).pc = .idle ∧ cwOp 0x40000000000000000#67 = 4 ∧
    5 ≤ (cwOp 0x50000000000000000#67).toNat ∧ 5 ≤ (cwOp 0x7FFFFFFFFFFFFFFFF#67).toNat := by decide

theorem witness_StepRunsDecoded : (runningState []).pc = .idle ∧
    (cwOp 0x10000000100000005#67 ≠ 4 ∧ decodeCmd 0x10000000100000005#67 = .ok (.start 1 5)) ∧
    (cwOp 0x40000000100000000#67 = 4 ∧ decodeCmd 0x40000000100000000#67 = .ok (.resetm 1)) ∧
    decodeNib cfgRef 2 (nib (runningState []).pmc 2) = .ok (.nibRun 2 5) ∧
    decodeNib cfgRef 2 (nib 0x001FEFEE#32 2) = .ok (.nibReset 2) ∧
    decodeNib cfgAlt 3 (nib 0xC7002000#32 3) = .error (.reservedNibble 2) := by decide

theorem witness_EncStartAnswers : cfgRef.WF ∧ cfgRef.evMin ≤ (0#4).toNat ∧ ((0#4).toNat : Int) ≤ cfgRef.evMax ∧
    cfgRef.evMin ≤ (13#4).toNat ∧ ((13#4).toNat : Int) ≤ cfgRef.evMax := by decide

theorem witness_EncStartAnswers_refused : ((0#4).toNat : Int) < cfgAlt.evMin ∧ cfgRef.evMax < ((14#4).toNat : Int) ∧
    cfgRef.evMax < ((15#4).toNat : Int) := by decide

theorem witness_PmcWriteEffect : onNext (seqStep { st cfgRef 0 #v[1, 2, 3, 4] [] with pc := .stopP1, xW := 0x001FFF00 })
    (fun t => t.trace == [.wrPmc 0x001FFFEE]) = true := by decide

theorem witness_CodecLaws : cfgRef.WF ∧ encStart cfgRef 0 0 = some 0 ∧ runOf cfgRef 0 = some 0 ∧ encStart cfgRef 3 13 = some 0x0000D000 ∧
    runOf cfgRef 13 = some 13 ∧ encStop cfgRef 3 = 0x0000E000 ∧ encReset cfgRef 0 = 0x0000000F ∧ (0 : Slot) ≠ 3 :=
  ⟨cfgRef_wf, by decide, by decide, by decide, by decide, by decide, by decide, by decide⟩

theorem witness_RunCounts : counting cfgRef (runningState []).pmc (pairOf 0) 0 = true ∧ counting cfgRef (runningState []).pmc (pairOf 3) 5 = true := by decide

theorem witness_CountCarries : count (st cfgRef 0x001F5500 #v[0xFFFFFFFF, 0xFFFFFFFF, 0, 0] []) 0 = 0xFFFFFFFFFFFFFFFF#64 := by decide

theorem witness_RunInUndefinedPairHavocs : undefinedPair cfgRef 0x001F5E00#32 (pairOf 3) = true := by decide

theorem witness_RunElsewhereChangesNothing : counting cfgRef (quietState []).pmc (pairOf 2) 5 = false ∧
    undefinedPair cfgRef (quietState []).pmc (pairOf 2) = false := by decide

theorem witness_PmcWriteRunsResetCommand : nib 0x001FEFEE#32 2 = cfgRef.nibReset ∧ ∀ j : Slot, j ≠ 2 → nib 0x001FEFEE#32 j ≠ cfgRef.nibReset := by decide

theorem witness_CounterFrame : onNext (agentStep (.cnt 0) (runningState [])) (fun _ => true) = true ∧
    onNext (agentStep .hwReset (runningState [])) (fun _ => true) = true ∧ quiet cfgRef (quietState []).pmc (pairOf 0) = true := by decide

theorem witness_UninterpretedBitsHaveNoEffect : 16 ≤ (18 : Fin 32).val ∧ (18 : Fin 32) ≠ cfgRef.fCh01 ∧ (18 : Fin 32) ≠ cfgRef.fCh23 ∧
    (31 : Fin 32) ≠ cfgRef.fCh01 ∧ (31 : Fin 32) ≠ cfgRef.fCh23 ∧ onNext (agentStep (.cnt 2) (runningState [])) (fun _ => true) = true := by decide

/-- Of `SetupEndState`, `StartEndState`, `StopEndState`, `ReadEndState`, `ResetmEndState` and `RepeatedOperations`: IDLE, nothing scheduled, the
lowest and the highest valid event. -/
theorem witness_end_states : cfgRef.WF ∧ (quietState []).pc = .idle ∧ (quietState []).schedule = [] ∧
    cfgRef.evMin ≤ (0#32).toInt ∧ (0#32).toInt ≤ cfgRef.evMax ∧ cfgRef.evMin ≤ (13#32).toInt ∧ (13#32).toInt ≤ cfgRef.evMax := by decide

theorem witness_InvalidArgumentsFail : (quietState [.seq]).pc = .idle ∧ (2#32).toInt ≠ 0 ∧ (2#32).toInt ≠ 1 ∧ (0xFFFFFFFF#32).toInt < cfgRef.evMin ∧
    cfgRef.evMax < (14#32).toInt := by decide

theorem witness_SentinelIsAmbiguous : (quietState []).pc = .idle ∧ (0xFFFFFFFF#32).toInt ≠ 0 ∧ (0xFFFFFFFF#32).toInt ≠ 1 ∧
    (quietState []).schedule = [] ∧ (st cfgRef 0 #v[0, 0, 0xFFFFFFFF, 0xFFFFFFFF] []).pm[highSlot 1] = 0xFFFFFFFF#32 ∧
    (st cfgRef 0 #v[0, 0, 0xFFFFFFFF, 0xFFFFFFFF] []).pm[lowSlot 1] = 0xFFFFFFFF#32 := by decide

theorem witness_BusyCommandsRefused : (inPhase .startT1 [.caller 0]).pc ≠ .idle ∧ (inPhase .startT1 [.caller 0]).schedule = [.caller 0] := by decide

theorem witness_EndWordsMeaning : cfgRef.WF ∧ runOf cfgRef 13 = some 13 ∧ (0 : Monitor) ≠ 1 := by decide

/-- The windows hold an EXT write, a turn of CNT, an EXT read and a codec request; a command follows the operation. -/
theorem witness_InterleavedWriteLost : cfgRef.WF ∧ (quietState []).pc = .idle ∧ cfgRef.evMin ≤ (0#32).toInt ∧ (13#32).toInt ≤ cfgRef.evMax ∧
    ∀ mv ∈ [Move.cnt 3] ++ [.extWrite 0, .cnt 0] ++ [.extRead] ++ [.codec 0x7D] ++ [.extWrite 1] ++ [.cnt 2], mv.between cfgRef = true :=
  ⟨cfgRef_wf, rfl, by decide, by decide, by decide⟩

theorem test_start_windows : onNext (exec (.start 1 13) (quietState
      ([.cnt 3] ++ .seq :: ([.extWrite 0, .cnt 0] ++ .seq :: ([.extRead] ++ .seq :: [.caller 0]))))) (fun t =>
    t.pmc == 0x001FDDEE && t.schedule == [.caller 0]) = true := by decide

theorem witness_SequencerWritesPreserve : cfgRef.WF ∧ monitorOf (inPhase .startT1 []).xM = some 1 ∧
    ∀ p ∈ [Phase.idle, .setupS0, .setupS1, .setupS2, .setupS3, .setupS4, .setupS5, .startT0, .startT1, .startT2, .stopP0, .stopP1,
      .readR0, .readR1], onNext (seqStep (inPhase p [])) (fun _ => true) = true := by decide

theorem witness_SequencerAdvances : onNext (seqStep (inPhase .startT2 [])) (fun t => t.pc == .idle) = true ∧ (inPhase .startT2 []).pc ≠ .idle := by decide

theorem witness_ReadCarryRace : counting cfgRef 0x001FFF00 0 0 = true ∧
    (st cfgRef 0x001FFF00 #v[0xFFFFFFFF, 4, 0, 0] [.seq, .cnt 0, .seq]).schedule = .seq :: (List.replicate 1 (.cnt (lowSlot 0)) ++ .seq :: []) ∧
    (count (st cfgRef 0x001FFF00 #v[0xFFFFFFFF, 4, 0, 0] []) 0).toNat + 1 < 2 ^ 64 := by decide

/-- EXT acts before the first access and after the last, CNT and the codec in between, and a command comes after: EXCL(op) holds (R49). -/
def exclMoves : List Move := [.extWrite 0x001FEE00, .cnt 2, .seq, .codec 0x7D, .cnt 0, .seq, .extRead, .caller 0]

/-- Of the clauses with EXCL alone of `QuietReadExact` and `StopAndResetmUnderExcl`. -/
theorem witness_under_excl : Exclusive 2 exclMoves = true ∧ noExt 2 exclMoves = false ∧ Unbroken cfgRef 2 exclMoves = true ∧
    pmcAtFirst 0x001FEEEE exclMoves = 0x001FEE00 ∧ quiet cfgRef 0x001FEE00 1 = true ∧ afterAccesses 2 exclMoves = [.extRead, .caller 0] ∧
    turns 0 2 exclMoves = 1 ∧ turns 1 2 exclMoves = 1 := by decide

theorem test_stop_under_excl : onNext (exec (.stop 0) (quietState exclMoves)) (fun t =>
    t.pmc == 0x001FEEEE && t.pm == #v[2, 2, 3, 4] && t.schedule == [.extRead, .caller 0] && t.codecOut == 0xD000) = true := by decide

/-- Of `QuietReadExact`, second clause, and of the counting clauses of `StopAndResetmUnderExcl`: EXT stays out from the start. -/
theorem witness_noExt : noExt 2 [.cnt 0, .seq, .cnt 3, .seq, .extWrite 0] = true ∧ Unbroken cfgRef 2 [.cnt 0, .seq, .cnt 3, .seq, .extWrite 0] = true ∧
    quiet cfgRef (quietState []).pmc 0 = true ∧ counting cfgRef (runningState []).pmc 1 5 = true ∧ monitorOf (inPhase .stopP1 []).xM = some 1 ∧
    noExt 1 [.cnt 2, .codec 0, .seq, .extWrite 0] = true ∧ Unbroken cfgRef 1 [.cnt 2, .codec 0, .seq, .extWrite 0] = true := by decide

theorem witness_SetupUnderExcl :
    Exclusive 6 [.extWrite 0, .seq, .cnt 0, .seq, .seq, .seq, .cnt 3, .seq, .seq, .extWrite 1] = true ∧
    Unbroken cfgRef 6 [.extWrite 0, .seq, .cnt 0, .seq, .seq, .seq, .cnt 3, .seq, .seq, .extWrite 1] = true := by decide

theorem witness_StartUnderExcl : Exclusive 3 [.extWrite 0x001FFFFF, .seq, .cnt 0, .seq, .cnt 3, .seq, .extRead] = true ∧
    Unbroken cfgRef 3 [.extWrite 0x001FFFFF, .seq, .cnt 0, .seq, .cnt 3, .seq, .extRead] = true ∧
    chained cfgRef (pmcAtFirst 0 [.extWrite 0x001FFFFF, .seq]) 1 = true ∧
    noExt 3 [.seq, .cnt 2, .seq, .seq] = true ∧ counting cfgRef (runningState []).pmc 1 5 = true ∧ (1 : Monitor) ≠ 0 ∧
    cfgRef.evMin ≤ (0#32).toInt ∧ (13#32).toInt ≤ cfgRef.evMax := by decide

theorem witness_MeasuredCount : chained cfgRef (quietState []).pmc 1 = true ∧
    (quietState (.caller (cwOf 1 1 13) :: .seq :: .seq :: .seq :: (List.replicate 2 (.cnt (lowSlot 1)) ++
      [.caller (cwOf 2 1 0), .seq, .seq, .caller (cwOf 3 1 0)]))).schedule =
    .caller (cwOf 1 (BitVec.ofNat 32 (1 : Monitor).val) 13) :: .seq :: .seq :: .seq :: (List.replicate 2 (.cnt (lowSlot 1)) ++
      [.caller (cwOf 2 (BitVec.ofNat 32 (1 : Monitor).val) 0), .seq, .seq, .caller (cwOf 3 (BitVec.ofNat 32 (1 : Monitor).val) 0)]) := by decide

/-- A state with `Inv` and an operation in progress, from which a step answers a next state: of `InvKept`, `NoStepFaults`, `OperationsEnd`,
`ConfigurationFixed` and `SetupDoneIsGhost`. -/
theorem witness_inv : Inv (inPhase .startT0 []) ∧ (inPhase .startT0 []).pc ≠ .idle ∧ (inPhase .startT0 []).schedule = [] ∧
    onNext (step (inPhase .startT0 [])) (fun t => t.status == 0) = true := by
  exact ⟨⟨cfgRef_wf, by decide⟩, by decide, by decide, by decide⟩

theorem witness_NoUndefinedPairAfterSetup :
    SoundRun { inPhase .stopP1 [.cnt 0] with setupDone := true } ∧
    onNext (step { inPhase .stopP1 [.cnt 0] with setupDone := true }) (fun t => t.setupDone && t.pmc == 0x001FEEEE) = true := by
  refine ⟨⟨⟨cfgRef_wf, by decide⟩, ?_, fun _ => by decide, rfl⟩, by decide⟩
  intro mv h
  simp [inPhase, quietState, st] at h
  rw [h]
  rfl

theorem witness_HardwareResetLeaves : (inPhase .startT1 [.hwReset, .seq]).schedule = .hwReset :: [.seq] ∧
    onNext (step (inPhase .startT1 [.hwReset, .seq])) (fun t => t.pc == .idle) = true := by decide

end Sys2Proof.Tests
end

section
/-! PROOFS. SEQ's steps under the invariant: each answers a next state, keeps the invariant and makes one port access (R31, R110); so an
operation that nothing interrupts ends (O45). -/

namespace Sys2Proof.Machine

/-! ## One SEQ step -/

/-- A SEQ step goes one phase further in the order of the operation's rule (R31). -/
theorem seqStep_pc {s t : State} (h : seqStep s = .next t) : t.pc = s.pc.after := by
  cases seqStep_effect h <;> simp [*, Phase.after]

/-- A SEQ step keeps the argument latches: they are loaded when a command is accepted, never by a phase (R30, R68). -/
theorem seqStep_arguments {s t : State} (h : seqStep s = .next t) : t.xM = s.xM ∧ t.xE = s.xE := by
  cases seqStep_effect h <;> exact ⟨rfl, rfl⟩

/-- A SEQ step of an operation in progress makes exactly one port access (R12). -/
theorem seqStep_trace {s t : State} (hp : s.pc ≠ .idle) (h : seqStep s = .next t) : ∃ a, t.trace = a :: s.trace := by
  cases seqStep_effect h
  case idle hi => exact absurd hi hp
  all_goals exact ⟨_, rfl⟩

/-! ## The invariant -/

/-- A valid event has its running words: START2 is defined for it (R82, R113). -/
theorem start2_of_eventOf {c : Cfg} (hc : c.WF) {x : Word} {e : Event} (he : eventOf c x = some e) (m : Monitor) :
    ∃ v, start2 c m e = some v := by
  obtain ⟨n, hn⟩ := Option.isSome_iff_exists.1 ((runOf_isSome c hc e).trans (eventOf_toNat c hc x e he).2)
  exact ⟨pairWord n m, by rw [start2_eq, hn]; rfl⟩

/-- A phase that uses the monitor argument has a valid one in its latch (R110, R111). -/
theorem latchesHold_monitor {s : State} (h : latchesHold s = true)
    (hp : s.pc = .startT1 ∨ s.pc = .startT2 ∨ s.pc = .stopP1 ∨ s.pc = .readR0 ∨ s.pc = .readR1) :
    ∃ m, monitorOf s.xM = some m := by
  rw [← Option.isSome_iff_exists]
  obtain hp | hp | hp | hp | hp := hp
  all_goals simp only [latchesHold, hp, Bool.and_eq_true] at h
  exacts [h.1, h.1, h, h, h]

/-- START's last phase has a valid event in its latch (R110, R112). -/
theorem latchesHold_event {s : State} (h : latchesHold s = true) (hp : s.pc = .startT2) : ∃ e, eventOf s.cfg s.xE = some e := by
  simp only [latchesHold, hp, Bool.and_eq_true] at h
  exact Option.isSome_iff_exists.1 h.2

/-- Under the invariant SEQ's step always answers a next state. -/
theorem seqStep_next_of_inv {s : State} (hs : Inv s) : ∃ t, seqStep s = .next t := by
  obtain ⟨hc, hl⟩ := hs
  cases hp : s.pc with
  | idle => exact ⟨s, by rw [seqStep, hp]⟩
  | setupS0 => exact ⟨_, seqStep_setupS0 hp⟩
  | setupS1 => exact ⟨_, seqStep_setupS1 hp⟩
  | setupS2 => exact ⟨_, seqStep_setupS2 hp⟩
  | setupS3 => exact ⟨_, seqStep_setupS3 hp⟩
  | setupS4 => exact ⟨_, seqStep_setupS4 hp⟩
  | setupS5 => exact ⟨_, seqStep_setupS5 hp⟩
  | startT0 => exact ⟨_, seqStep_startT0 hp⟩
  | startT1 =>
    obtain ⟨m, hm⟩ := latchesHold_monitor hl (by simp [hp])
    exact ⟨_, seqStep_startT1 hp hm⟩
  | startT2 =>
    obtain ⟨m, hm⟩ := latchesHold_monitor hl (by simp [hp])
    obtain ⟨e, he⟩ := latchesHold_event hl hp
    obtain ⟨v, hv⟩ := start2_of_eventOf hc he m
    exact ⟨_, seqStep_startT2 hp hm he hv⟩
  | stopP0 => exact ⟨_, seqStep_stopP0 hp⟩
  | stopP1 =>
    obtain ⟨m, hm⟩ := latchesHold_monitor hl (by simp [hp])
    exact ⟨_, seqStep_stopP1 hp hm⟩
  | readR0 =>
    obtain ⟨m, hm⟩ := latchesHold_monitor hl (by simp [hp])
    exact ⟨_, seqStep_readR0 hp hm⟩
  | readR1 =>
    obtain ⟨m, hm⟩ := latchesHold_monitor hl (by simp [hp])
    exact ⟨_, seqStep_readR1 hp hm⟩

/-- A SEQ step keeps the invariant: the next phase of the same operation asks for the same arguments, and IDLE for none. -/
theorem seqStep_keeps_inv {s t : State} (hs : Inv s) (h : seqStep s = .next t) : Inv t := by
  obtain ⟨hc, hl⟩ := hs
  obtain ⟨hcfg, -⟩ := seqStep_frame h
  obtain ⟨hM, hE⟩ := seqStep_arguments h
  refine ⟨by rw [hcfg]; exact hc, ?_⟩
  rw [latchesHold, seqStep_pc h, hM, hE, hcfg]
  rw [latchesHold] at hl
  cases hp : s.pc with
  | startT0 | startT1 | stopP0 | readR0 => rw [hp] at hl; exact hl
  | idle | setupS0 | setupS1 | setupS2 | setupS3 | setupS4 | setupS5 | startT2 | stopP1 | readR1 => rfl

/-! ## The operation's end -/

/-- An operation that goes on alone ends, with at most as many port accesses as it has phases left (R12). -/
theorem finish_ends {s : State} (hs : Inv s) {n : Nat} (hn : s.pc.left ≤ n) :
    ∃ t, finish n s = .next t ∧ t.pc = .idle ∧ t.trace.length ≤ s.trace.length + s.pc.left := by
  obtain ⟨t, ht, ⟨-, hlen⟩, hi⟩ :=
    finish_total (Q := fun u => Inv u ∧ u.trace.length + u.pc.left ≤ s.trace.length + s.pc.left) (fun u hu hp => by
      obtain ⟨hinv, hlen⟩ := hu
      obtain ⟨v, hv⟩ := seqStep_next_of_inv hinv
      obtain ⟨a, ha⟩ := seqStep_trace hp hv
      have hleft : u.pc.left ≠ 0 := fun h0 => hp (Phase.left_eq_zero _ h0)
      refine ⟨v, hv, seqStep_keeps_inv hinv hv, ?_⟩
      rw [ha, List.length_cons, seqStep_left hv]
      omega) n s ⟨hs, le_rfl⟩ hn
  exact ⟨t, ht, hi, by omega⟩

/-- Settles O45: with nothing scheduled the step is SEQ going on alone, and no operation has more than six phases left (R52). -/
theorem operationsEnd : Obligations.OperationsEnd := by
  intro s hs hp hl
  have hstep : step s = finish 6 s := by
    rw [step, if_neg hp, hl, runOp]
    cases s
    cases hl
    rfl
  have h6 := Phase.left_le s.pc
  obtain ⟨t, ht, hi, hlen⟩ := finish_ends hs h6
  exact ⟨t, hstep.trans ht, hi, by omega⟩

end Sys2Proof.Machine
end

section
/-! PROOFS. SEQ's phases (O33, O34): which bits of the word a phase fetched its write keeps (R26, R114 to R117), and how far each step goes (R31). -/

namespace Sys2Proof.Machine

/-! ## The words SEQ writes -/

/-- Outside the monitor's nibbles START2's word leaves every bit as it was (R26 (i), R113). -/
theorem install_start2_outside {c : Cfg} {m : Monitor} {e : Event} {v : Word} (hv : start2 c m e = some v) (w : Word) :
    install w (monMask m) v &&& ~~~monMask m = w &&& ~~~monMask m := by
  rw [start2_eq] at hv
  obtain ⟨n, -, rfl⟩ := Option.map_eq_some_iff.1 hv
  exact install_pair_outside w n m

/-- A reserved bit lies above the nibbles and is no flag (R24). -/
theorem rsvdMask_getLsbD_of_low (c : Cfg) {i : Nat} (h : i < 16) : (rsvdMask c).getLsbD i = false := by
  have hlow : (0x0000FFFF#32).getLsbD i = true := by interval_cases i <;> decide
  simp [rsvdMask, hlow]

theorem rsvdMask_getLsbD_of_flag (c : Cfg) {i : Nat} (h : (flagsAll c).getLsbD i = true) : (rsvdMask c).getLsbD i = false := by
  simp [rsvdMask, h]

/-- SETUP's first write keeps the reserved bits (R26 (ii), R115). -/
theorem setupWord_rsvd (c : Cfg) (w : Word) : setupWord c w &&& rsvdMask c = w &&& rsvdMask c := by
  apply BitVec.eq_of_getLsbD_eq
  intro i _
  rw [BitVec.getLsbD_and, BitVec.getLsbD_and]
  by_cases hlow : i < 16
  · simp [rsvdMask_getLsbD_of_low c hlow]
  · rw [setupWord_high c w i (by omega)]
    cases hf : (flagsAll c).getLsbD i with
    | true => simp [rsvdMask_getLsbD_of_flag c hf]
    | false => simp

/-- Settles O33: each phase's clause is the one its effect meets; the writes are clear-then-OR on one monitor, or SETUP's first word. -/
theorem sequencerWritesPreserve : Obligations.SequencerWritesPreserve := by
  intro s t hc h
  cases seqStep_effect h with
  | setupS1 hp => simp [hp, setupWord_rsvd, flagsSet_setupWord s.cfg hc]
  | setupS3 hp => simp [hp, reset2_eq, install_pair_outside]
  | setupS5 hp => simp [hp, reset2_eq, install_pair_outside]
  | startT1 hp m hm => simp [hp, hm, reset2_eq, install_pair_outside]
  | startT2 hp m hm e he v hv => simp [hp, hm, install_start2_outside hv]
  | stopP1 hp m hm => simp [hp, hm, stop2_eq, install_pair_outside]
  | idle hp | setupS0 hp | setupS2 hp | setupS4 hp | startT0 hp | stopP0 hp | readR0 hp | readR1 hp => simp [hp]

/-- Settles O34: every SEQ step goes to the next phase, and one of an operation in progress makes one port access. -/
theorem sequencerAdvances : Obligations.SequencerAdvances :=
  fun _ _ h => ⟨seqStep_pc h, fun hp => seqStep_trace hp h⟩

end Sys2Proof.Machine
end

section
/-! PROOFS. The configuration is a parameter (O43): no command and no agent's step changes it (R35 (a)). -/

namespace Sys2Proof.Machine

theorem runOp_cfg {l : List Move} {s t : State} (h : runOp l s = .next t) : t.cfg = s.cfg :=
  runOp_keeps (P := fun u => u.cfg = s.cfg) (fun _ _ hu => hu) (fun _ _ hu hv => (seqStep_frame hv).1.trans hu) l
    (fun _ _ _ _ hu hv => (agentStep_frame hv).1.trans hu) s t rfl h

theorem execResetm_cfg {m : Monitor} {s t : State} (h : execResetm m s = .next t) : t.cfg = s.cfg :=
  resetmTail_keeps (P := fun u => u.cfg = s.cfg) (fun _ _ hu => hu) m (fun _ hu => hu) s.schedule
    (fun _ _ _ _ hu hv => (agentStep_frame hv).1.trans hu) (resetmRead s) t rfl h

/-- Whichever command CALLER presents, it fails at once or runs as an operation; both leave the configuration. -/
theorem presentCaller_cfg {w : BitVec 67} {s t : State} (h : presentCaller w s = .next t) : t.cfg = s.cfg := by
  obtain h | h | h | h := presentCaller_cases h
  · exact (runOp_cfg (execSetup_cases h).2).trans rfl
  · obtain ⟨-, ⟨rfl, -⟩ | ⟨m, e, -, -, hrun⟩⟩ := execStart_cases h
    · rfl
    · exact (runOp_cfg hrun).trans rfl
  · obtain ⟨-, ⟨rfl, -⟩ | ⟨m, -, hrun⟩⟩ := execStop_cases h
    · rfl
    · exact (runOp_cfg hrun).trans rfl
  · obtain ⟨-, ⟨rfl, -⟩ | ⟨m, -, hrun⟩⟩ := execRead_cases h
    · rfl
    · exact (runOp_cfg hrun).trans rfl

/-- Settles O43: a step is an operation going on, nothing, a command from CALLER, RESETM, or one agent's step. -/
theorem configurationFixed : Obligations.ConfigurationFixed := by
  intro s t h
  obtain ⟨-, hrun⟩ | ⟨-, -, rfl⟩ | ⟨-, mv, rest, -, ⟨w, -, hw⟩ | ⟨w, -, hw⟩ | hmv⟩ := step_cases h
  · exact runOp_cfg hrun
  · rfl
  · exact (presentCaller_cfg hw).trans rfl
  · obtain ⟨m, hm⟩ := presentInternal_cases hw
    exact (execResetm_cfg hm).trans rfl
  · exact (agentStep_frame hmv).1

end Sys2Proof.Machine
end

section
/-! PROOFS. Reset (O47, O48): the state it leaves meets the invariants (R36), and it may come at any phase (R160). -/

namespace Sys2Proof.Machine

theorem inv_reset : Inv State.reset := ⟨chipCfg_wf, rfl⟩

/-- Settles O47: after reset nothing is scheduled, SETUP has not completed, and no operation is in progress. -/
theorem resetMeetsInvariants : Obligations.ResetMeetsInvariants :=
  ⟨inv_reset, inv_reset, List.forall_mem_nil _, Bool.false_ne_true.elim, trivial⟩

/-- A hardware reset scheduled next is taken at any phase, and the step is at its end with it: at IDLE, whatever comes after (R160, log 16). -/
theorem step_hwReset {s : State} {rest : List Move} (h : s.schedule = .hwReset :: rest) :
    step s = .next { hardwareReset s with schedule := rest } := by
  by_cases hi : s.pc = .idle
  · rw [step, if_pos hi, h]; rfl
  · rw [step, if_neg hi, h, runOp_cons _ _ _ hi Move.noConfusion]
    exact runOp_idle rest (hardwareReset s) (hardwareReset_pc s)

/-- The counters after a hardware reset: the four draws after PMC's (R36, log 1). -/
theorem hardwareReset_pm_get (s : State) (k : Slot) : (hardwareReset s).pm[k] = Config.freeWord (s.drawn + 1 + k.val) := by
  fin_cases k <;> rfl

/-- Settles O48: the step is `hardwareReset` itself, from any phase. -/
theorem hardwareResetLeaves : Obligations.HardwareResetLeaves :=
  fun s _ h => ⟨_, step_hwReset h, rfl, rfl, rfl, rfl, rfl, hardwareReset_pm_get s, rfl, rfl, rfl, rfl, rfl, rfl, rfl, rfl⟩

end Sys2Proof.Machine
end

section
/-! PROOFS. The ghost bit (O41): no meaning of the machine reads `setup_done` (R33). Said first of the ways meanings are put together, then of
each meaning, in the order the model builds a step from them. -/

namespace Sys2Proof.Machine

/-- With `setup_done` changed before, `f` answers the same next state up to `setup_done` (R33). -/
def IgnoresSetupDone (f : State → Result) : Prop :=
  ∀ (s t : State) (b : Bool), f s = .next t → ∃ b', f { s with setupDone := b } = .next { t with setupDone := b' }

/-- An update that carries `setup_done` along and changes the rest without it. -/
def CarriesSetupDone (u : State → State) : Prop :=
  ∀ s b, u { s with setupDone := b } = { u s with setupDone := b }

namespace IgnoresSetupDone

/-! ## How meanings are put together -/

section

variable {f g : State → Result} {u : State → State}

theorem next (hu : CarriesSetupDone u) : IgnoresSetupDone fun s => .next (u s) := by
  intro s t b h
  cases h
  exact ⟨b, congrArg _ (hu s b)⟩

theorem refused (r : Refusal) : IgnoresSetupDone fun _ => .refused r := fun _ _ _ h => nomatch h

theorem comp (hf : IgnoresSetupDone f) (hu : CarriesSetupDone u) : IgnoresSetupDone fun s => f (u s) := by
  intro s t b h
  obtain ⟨b', hb⟩ := hf (u s) t b h
  exact ⟨b', (congrArg f (hu s b)).trans hb⟩

/-- With the moves still to come set. -/
theorem withSchedule (hf : IgnoresSetupDone f) (l : List Move) : IgnoresSetupDone fun s => f { s with schedule := l } :=
  comp (f := f) hf fun _ _ => rfl

theorem andThen (hf : IgnoresSetupDone f) (hg : IgnoresSetupDone g) : IgnoresSetupDone fun s => andThen (f s) g := by
  intro s t b h
  obtain ⟨v, hv, hgv⟩ := andThen_eq_next h
  obtain ⟨b', hb⟩ := hf s v b hv
  obtain ⟨b'', hb'⟩ := hg v t b' hgv
  exact ⟨b'', by simp only [hb, andThen_next, hb']⟩

/-- A choice by what `d` reads, which is not `setup_done`: for each value read, `f` does what some `g` does that ignores `setup_done`. -/
theorem of_read {α : Type} {d : State → α} (hd : ∀ s b, d { s with setupDone := b } = d s)
    (h : ∀ a, ∃ g, IgnoresSetupDone g ∧ ∀ s, d s = a → f s = g s) : IgnoresSetupDone f := by
  intro s t b hs
  obtain ⟨g, hg, hfg⟩ := h (d s)
  rw [hfg s rfl] at hs
  rw [hfg _ (hd s b)]
  exact hg s t b hs

theorem ite {p : State → Prop} [DecidablePred p] (hp : ∀ s b, p { s with setupDone := b } = p s) (hf : IgnoresSetupDone f)
    (hg : IgnoresSetupDone g) : IgnoresSetupDone fun s => if p s then f s else g s := by
  refine of_read hp fun a => ?_
  by_cases ha : a
  · exact ⟨f, hf, fun s hs => if_pos (hs ▸ ha)⟩
  · exact ⟨g, hg, fun s hs => if_neg (hs ▸ ha)⟩

end

/-! ## One agent's step -/

/-- No phase reads `setup_done`; SETUP's last sets it, whatever it was. -/
theorem seqStep : IgnoresSetupDone seqStep := by
  intro s t b h
  cases seqStep_effect h with
  | idle hp => exact ⟨b, by rw [Machine.seqStep, hp]⟩
  | setupS0 hp => exact ⟨b, seqStep_setupS0 hp⟩
  | setupS1 hp => exact ⟨b, seqStep_setupS1 hp⟩
  | setupS2 hp => exact ⟨b, seqStep_setupS2 hp⟩
  | setupS3 hp => exact ⟨b, seqStep_setupS3 hp⟩
  | setupS4 hp => exact ⟨b, seqStep_setupS4 hp⟩
  | setupS5 hp => exact ⟨true, seqStep_setupS5 hp⟩
  | startT0 hp => exact ⟨b, seqStep_startT0 hp⟩
  | startT1 hp m hm => exact ⟨b, seqStep_startT1 hp hm⟩
  | startT2 hp m hm e he v hv => exact ⟨b, seqStep_startT2 hp hm he hv⟩
  | stopP0 hp => exact ⟨b, seqStep_stopP0 hp⟩
  | stopP1 hp m hm => exact ⟨b, seqStep_stopP1 hp hm⟩
  | readR0 hp m hm => exact ⟨b, seqStep_readR0 hp hm⟩
  | readR1 hp m hm => exact ⟨b, seqStep_readR1 hp hm⟩

/-- NIB_RUN chooses between COUNT, HAVOC and nothing by the status of the pair, which PMC gives (R97, R100). -/
theorem execNibRun (k : Slot) (e : Event) : IgnoresSetupDone (execNibRun k e) := by
  refine next fun s b => ?_
  dsimp only
  split_ifs <;> rfl

/-- CNT's turn follows the nibble stored in PMC (R90). -/
theorem cntStep (k : Slot) : IgnoresSetupDone (cntStep k) :=
  of_read (d := fun s => slotCmd s.cfg s.pmc k) (fun _ _ => rfl) fun
    | .run e => ⟨_, execNibRun k e, fun s hs => by rw [Machine.cntStep, hs]⟩
    | .stop => ⟨_, next fun _ _ => rfl, fun s hs => by rw [Machine.cntStep, hs]; rfl⟩
    | .reset => ⟨_, next (u := id) fun _ _ => rfl, fun s hs => by rw [Machine.cntStep, hs]; rfl⟩
    | .reserved => ⟨_, next fun _ _ => rfl, fun s hs => by rw [Machine.cntStep, hs]⟩

/-- The codec's answer depends on the configuration (R82). -/
theorem execEncStart (k : Slot) (e : Event) : IgnoresSetupDone (execEncStart k e) :=
  of_read (d := fun s => encStart s.cfg k e) (fun _ _ => rfl) fun
    | some v => ⟨_, next (u := answer v) fun _ _ => rfl, fun s hs => by rw [Machine.execEncStart, hs]⟩
    | none => ⟨_, refused _, fun s hs => by rw [Machine.execEncStart, hs]⟩

theorem codecStep (w : BitVec 8) : IgnoresSetupDone (codecStep w) := by
  unfold Machine.codecStep
  split
  · exact next fun _ _ => rfl
  · exact execEncStart _ _
  · exact next fun _ _ => rfl
  · exact next fun _ _ => rfl

/-- A hardware reset clears `setup_done`, whatever it was (R36). -/
theorem agentStep (mv : Move) : IgnoresSetupDone (agentStep mv) := by
  cases mv with
  | seq => exact seqStep
  | cnt k => exact cntStep k
  | codec w => exact codecStep w
  | extWrite v => exact next fun _ _ => rfl
  | extRead => exact next fun _ _ => rfl
  | pause => exact next fun _ _ => rfl
  | hwReset => intro s t b h; cases h; exact ⟨false, rfl⟩
  | caller w => exact refused _
  | internal w => exact refused _

/-! ## An operation among the scheduled moves -/

theorem finish (n : Nat) : IgnoresSetupDone (finish n) := by
  induction n with
  | zero => exact next fun _ _ => rfl
  | succ n ih => exact ite (fun _ _ => rfl) (next fun _ _ => rfl) (andThen seqStep ih)

theorem runOp (l : List Move) : IgnoresSetupDone (runOp l) := by
  induction l with
  | nil => exact (finish 6).withSchedule []
  | cons mv rest ih =>
    exact ite (fun _ _ => rfl) (next fun _ _ => rfl) (ite (fun _ _ => rfl) (next fun _ _ => rfl) (andThen (agentStep mv) ih))

theorem resetmTail (m : Monitor) (l : List Move) : IgnoresSetupDone (resetmTail m l) := by
  induction l with
  | nil => exact next fun _ _ => rfl
  | cons mv rest ih =>
    exact ite (fun _ _ => rfl) (next fun _ _ => rfl)
      (ite (fun _ _ => rfl) ((agentStep .hwReset).withSchedule rest) (andThen (agentStep mv) ih))

/-! ## Commands -/

/-- A command accepted at IDLE by an update `u` of latches and phase runs among the moves scheduled. -/
theorem accepted {u : State → State} (hu : CarriesSetupDone u) :
    IgnoresSetupDone fun s => Machine.runOp s.schedule (u s) :=
  of_read (d := State.schedule) (fun _ _ => rfl) fun l => ⟨_, comp (runOp l) hu, fun s hs => by rw [hs]⟩

theorem execSetup : IgnoresSetupDone execSetup :=
  ite (fun _ _ => rfl) (accepted fun _ _ => rfl) (refused _)

theorem execStart (mon ev : Word) : IgnoresSetupDone (execStart mon ev) := by
  refine ite (fun _ _ => rfl) ?_ (refused _)
  cases monitorOf mon with
  | none => exact next fun _ _ => rfl
  | some m =>
    exact of_read (d := fun s => eventOf s.cfg ev) (fun _ _ => rfl) fun
      | none => ⟨_, next (u := fun s => fail s.cfg.stEinval { s with xM := mon, xE := ev }) fun _ _ => rfl, fun s hs => by rw [hs]⟩
      | some e => ⟨_, accepted (u := fun s => goto .startT0 { s with xM := mon, xE := ev }) fun _ _ => rfl, fun s hs => by rw [hs]⟩

theorem execStop (mon : Word) : IgnoresSetupDone (execStop mon) := by
  refine ite (fun _ _ => rfl) ?_ (refused _)
  cases monitorOf mon with
  | none => exact next fun _ _ => rfl
  | some m => exact accepted fun _ _ => rfl

theorem execRead (mon : Word) : IgnoresSetupDone (execRead mon) := by
  refine ite (fun _ _ => rfl) ?_ (refused _)
  cases monitorOf mon with
  | none => exact next fun _ _ => rfl
  | some m => exact accepted fun _ _ => rfl

theorem execResetm (m : Monitor) : IgnoresSetupDone (execResetm m) :=
  of_read (d := State.schedule) (fun _ _ => rfl) fun l =>
    ⟨_, comp (resetmTail m l) (u := resetmRead) fun _ _ => rfl, fun s hs => by rw [Machine.execResetm, hs]⟩

theorem exec (i : Instr) : IgnoresSetupDone (exec i) := by
  cases i with
  | setup => exact execSetup
  | start mon ev => exact execStart mon ev
  | stop mon => exact execStop mon
  | read mon => exact execRead mon
  | resetm m => exact execResetm m
  | encStart k ev => exact execEncStart k ev
  | nibRun k ev => exact execNibRun k ev
  | mask k | encStop k | encReset k | nibStop k | nibReset k => exact next fun _ _ => rfl

theorem presentCaller (w : BitVec 67) : IgnoresSetupDone (presentCaller w) := by
  refine ite (fun _ _ => rfl) (refused _) ?_
  cases decodeCmd w with
  | ok i => exact comp (exec i) fun _ _ => rfl
  | error e => exact refused _

theorem presentInternal (w : BitVec 67) : IgnoresSetupDone (presentInternal w) := by
  refine ite (fun _ _ => rfl) ?_ (refused _)
  cases decodeCmd w with
  | ok i => exact exec i
  | error e => exact refused _

/-! ## The step -/

theorem nextMove (l : List Move) : IgnoresSetupDone (nextMove l) := by
  cases l with
  | nil => exact next fun _ _ => rfl
  | cons mv rest =>
    have hagent := (agentStep mv).withSchedule rest
    cases mv with
    | caller w => exact (presentCaller w).withSchedule rest
    | internal w => exact (presentInternal w).withSchedule rest
    | codec w => exact (exec (decodeCodec w)).withSchedule rest
    | seq | cnt _ | extWrite _ | extRead | hwReset | pause => exact hagent

theorem step : IgnoresSetupDone step :=
  of_read (d := State.schedule) (fun _ _ => rfl) fun l =>
    ⟨_, ite (p := fun s => s.pc = .idle) (fun _ _ => rfl) (nextMove l) (runOp l), fun s hs => by rw [Machine.step, hs]⟩

end IgnoresSetupDone

/-- Settles O41: `step` is put together from meanings none of which reads `setup_done`. -/
theorem setupDoneIsGhost : Obligations.SetupDoneIsGhost := IgnoresSetupDone.step

end Sys2Proof.Machine
end

section
/-! PROOFS. The register space and the PMC write (O11, O12): what the memory primitives answer (R42), and that a write repeated is the write (R45). -/

namespace Sys2Proof.Machine

/-! ## The PMC write -/

/-- A counter the store has zeroed is zeroed again, one it has left is left again (R95). -/
theorem resetCounters_idem (c : Cfg) (w : Word) (pm : Vector Word 4) :
    resetCounters c w (resetCounters c w pm) = resetCounters c w pm := by
  refine counters_ext _ _ fun k => ?_
  rw [resetCounters_get, resetCounters_get]
  split <;> rfl

theorem wrPmc_idem (v : Word) (s : State) : wrPmc v (wrPmc v s) = wrPmc v s := by
  rw [wrPmc, wrPmc_pm, wrPmc_cfg, resetCounters_idem]
  rfl

/-- Settles O11: the repeated write stores the same word and zeroes the same counters; a read answers PMC, which the last write set. -/
theorem pmcWriteIdempotent : Obligations.PmcWriteIdempotent :=
  fun s v _ => ⟨wrPmc_idem v s, wrPmc_pmc _ v⟩

/-! ## The register space -/

theorem memRead_pmc (s : State) : memRead s 0 4 = some s.pmc := rfl

theorem memRead_counter (s : State) (k : Slot) : memRead s (1 + k.val) 4 = some s.pm[k] := by
  have hk : 1 + k.val - 1 = k.val := Nat.add_sub_cancel_left 1 k.val
  simp [memRead, rdPm, hk]

/-- Another width or an address above the last counter's is not defined. -/
theorem memRead_eq_none (s : State) {a n : Nat} (h : n ≠ 4 ∨ 4 < a) : memRead s a n = none := by
  unfold memRead
  obtain hn | ha := h
  · rw [if_neg hn]
  · rw [if_neg (show a ≠ 0 by omega), dif_neg (show ¬ a - 1 < 4 by omega), ite_self]

theorem memWrite_pmc (s : State) (v : Word) : memWrite s 0 4 v = some (wrPmc v s) := rfl

/-- Only PMC is writable, and only at width 4. -/
theorem memWrite_eq_none (s : State) (v : Word) {a n : Nat} (h : n ≠ 4 ∨ a ≠ 0) : memWrite s a n v = none :=
  if_neg (not_and_or.2 h)

/-- Settles O12, address by address. -/
theorem registerSpace : Obligations.RegisterSpace :=
  fun s _ _ v => ⟨memRead_pmc s, memRead_counter s, memRead_eq_none s, memWrite_pmc s v, memWrite_eq_none s v⟩

end Sys2Proof.Machine
end

section
/-! PROOFS. No step faults (O44): READ's phases alone can fault (R54), and only without a valid monitor in their latch, which the invariant rules
out. So the invariant is carried along the moves of an operation, and through the acceptance of each command. -/

namespace Sys2Proof.Machine

/-! ## One agent's step -/

/-- At IDLE nothing is asked of the latches. -/
theorem inv_of_idle {s : State} (hc : s.cfg.WF) (hp : s.pc = .idle) : Inv s := ⟨hc, by rw [latchesHold, hp]⟩

/-- Every agent's step keeps the invariant: none but SEQ's and the hardware reset touches the phase or the argument latches. -/
theorem agentStep_keeps_inv {mv : Move} {s t : State} (hs : Inv s) (h : agentStep mv s = .next t) : Inv t := by
  cases mv with
  | seq => exact seqStep_keeps_inv hs h
  | cnt k => obtain ⟨⟨pm, n, rfl⟩, -⟩ := cntStep_frame h; exact hs
  | codec w => obtain ⟨v, rfl⟩ := codecStep_cases h; exact hs
  | extWrite v => cases h; exact hs
  | extRead => cases h; exact hs
  | pause => cases h; exact hs
  | hwReset => cases h; exact inv_of_idle hs.1 (hardwareReset_pc s)
  | caller w => cases h
  | internal w => cases h

/-- From every state that meets the invariant, `f` answers a next state or a refusal. -/
def NeverFaults (f : State → Result) : Prop := ∀ (s : State) (e : Fault), Inv s → f s ≠ .fault e

theorem next_neverFaults (u : State → State) : NeverFaults fun s => .next (u s) := fun _ _ _ h => nomatch h

theorem seqStep_neverFaults : NeverFaults seqStep := by
  intro s e hs
  obtain ⟨t, ht⟩ := seqStep_next_of_inv hs
  rw [ht]
  nofun

theorem execEncStart_neverFaults (k : Slot) (ev : Event) : NeverFaults (execEncStart k ev) := by
  intro s e _
  unfold execEncStart
  split <;> nofun

theorem codecStep_neverFaults (w : BitVec 8) : NeverFaults (codecStep w) := by
  intro s e hs
  unfold codecStep
  split
  · nofun
  · exact execEncStart_neverFaults _ _ s e hs
  · nofun
  · nofun

theorem agentStep_neverFaults (mv : Move) : NeverFaults (agentStep mv) := by
  intro s e hs
  cases mv with
  | seq => exact seqStep_neverFaults s e hs
  | codec w => exact codecStep_neverFaults w s e hs
  | cnt k =>
    obtain ⟨t, ht⟩ := cntStep_next k s
    rw [show agentStep (.cnt k) s = cntStep k s from rfl, ht]
    nofun
  | extWrite _ | extRead | hwReset | pause | caller _ | internal _ => nofun

/-! ## An operation among the scheduled moves -/

/-- After a step that neither faults nor breaks the invariant, what comes next decides. -/
theorem NeverFaults.andThen {f g : State → Result} (hf : NeverFaults f) (hkeep : ∀ s t, Inv s → f s = .next t → Inv t)
    (hg : NeverFaults g) : NeverFaults fun s => Machine.andThen (f s) g := by
  intro s e hs h
  obtain hfault | ⟨t, ht, hfault⟩ := andThen_eq_fault h
  · exact hf s e hs hfault
  · exact hg t e (hkeep s t hs ht) hfault

theorem finish_neverFaults (n : Nat) : NeverFaults (finish n) := by
  induction n with
  | zero => exact next_neverFaults id
  | succ n ih =>
    intro s e hs
    unfold finish
    split
    · nofun
    · exact seqStep_neverFaults.andThen (fun _ _ => seqStep_keeps_inv) ih s e hs

theorem runOp_neverFaults (l : List Move) : NeverFaults (runOp l) := by
  induction l with
  | nil => exact fun s e hs => finish_neverFaults 6 { s with schedule := [] } e hs
  | cons mv rest ih =>
    intro s e hs
    unfold runOp
    split
    · nofun
    · split
      · nofun
      · exact (agentStep_neverFaults mv).andThen (fun _ _ => agentStep_keeps_inv) ih s e hs

theorem resetmTail_neverFaults (m : Monitor) (l : List Move) : NeverFaults (resetmTail m l) := by
  induction l with
  | nil => exact next_neverFaults _
  | cons mv rest ih =>
    intro s e hs
    unfold resetmTail
    split
    · nofun
    · split
      · nofun
      · exact (agentStep_neverFaults mv).andThen (fun _ _ => agentStep_keeps_inv) ih s e hs

/-! ## Commands: each is accepted with valid arguments in its latches, or fails at once -/

theorem ifIdle_ne_fault {s : State} {r : Result} {e : Fault} (h : r ≠ .fault e) :
    (if s.pc = .idle then r else .refused .busy) ≠ .fault e := by
  split
  · exact h
  · nofun

theorem execSetup_neverFaults : NeverFaults execSetup :=
  fun s e hs => ifIdle_ne_fault (runOp_neverFaults s.schedule (goto .setupS0 s) e ⟨hs.1, rfl⟩)

theorem execStart_neverFaults (mon ev : Word) : NeverFaults (execStart mon ev) := by
  intro s e hs
  refine ifIdle_ne_fault ?_
  cases hm : monitorOf mon with
  | none => nofun
  | some m =>
    cases he : eventOf s.cfg ev with
    | none => nofun
    | some v => exact runOp_neverFaults _ (goto .startT0 { s with xM := mon, xE := ev }) e ⟨hs.1, by simp [latchesHold, hm, he]⟩

theorem execStop_neverFaults (mon : Word) : NeverFaults (execStop mon) := by
  intro s e hs
  refine ifIdle_ne_fault ?_
  cases hm : monitorOf mon with
  | none => nofun
  | some m => exact runOp_neverFaults _ (goto .stopP0 { s with xM := mon }) e ⟨hs.1, by simp [latchesHold, hm]⟩

theorem execRead_neverFaults (mon : Word) : NeverFaults (execRead mon) := by
  intro s e hs
  refine ifIdle_ne_fault ?_
  cases hm : monitorOf mon with
  | none => nofun
  | some m => exact runOp_neverFaults _ (goto .readR0 { s with xM := mon }) e ⟨hs.1, by simp [latchesHold, hm]⟩

theorem execResetm_neverFaults (m : Monitor) : NeverFaults (execResetm m) :=
  fun s e hs => resetmTail_neverFaults m s.schedule (resetmRead s) e hs

theorem exec_neverFaults (i : Instr) : NeverFaults (exec i) := by
  cases i with
  | setup => exact execSetup_neverFaults
  | start mon ev => exact execStart_neverFaults mon ev
  | stop mon => exact execStop_neverFaults mon
  | read mon => exact execRead_neverFaults mon
  | resetm m => exact execResetm_neverFaults m
  | encStart k ev => exact execEncStart_neverFaults k ev
  | mask _ | encStop _ | encReset _ | nibRun _ _ | nibStop _ | nibReset _ => exact next_neverFaults _

/-! ## The step -/

/-- CALLER's word loads the argument latches before it is validated, so it is accepted at IDLE only (R68). -/
theorem presentCaller_ne_fault (w : BitVec 67) {s : State} (e : Fault) (hc : s.cfg.WF) (hp : s.pc = .idle) :
    presentCaller w s ≠ .fault e := by
  unfold presentCaller
  split
  · nofun
  · split
    · next i _ => exact exec_neverFaults i _ e (inv_of_idle hc hp)
    · nofun

theorem presentInternal_neverFaults (w : BitVec 67) : NeverFaults (presentInternal w) := by
  intro s e hs
  unfold presentInternal
  split
  · split
    · next i _ => exact exec_neverFaults i s e hs
    · nofun
  · nofun

theorem nextMove_ne_fault (l : List Move) {s : State} (e : Fault) (hc : s.cfg.WF) (hp : s.pc = .idle) : nextMove l s ≠ .fault e := by
  cases l with
  | nil => nofun
  | cons mv rest =>
    have hrest : Inv { s with schedule := rest } := inv_of_idle hc hp
    have hagent := agentStep_neverFaults mv _ e hrest
    cases mv with
    | caller w => exact presentCaller_ne_fault w (s := { s with schedule := rest }) e hc hp
    | internal w => exact presentInternal_neverFaults w _ e hrest
    | codec w => exact exec_neverFaults _ _ e hrest
    | seq | cnt _ | extWrite _ | extRead | hwReset | pause => exact hagent

/-- Settles O44: a step takes the next move at IDLE, or an operation goes on with valid arguments in its latches. -/
theorem noStepFaults : Obligations.NoStepFaults := by
  intro s e hs
  unfold step
  split
  · next hp => exact nextMove_ne_fault _ e hs.1 hp
  · exact runOp_neverFaults _ s e hs

end Sys2Proof.Machine
end

section
/-! PROOFS. What EXT writes between a read and a write of PMC is lost (O32; R49, R165): an operation runs window by window, and the word its
write is made from waits in latch x[W]. -/

namespace Sys2Proof.Machine

/-! ## One window and the access after it -/

/-- The operation accepted with the arguments of `s` is at phase p, with w in latch x[W]. -/
structure Holding (s : State) (p : Phase) (w : Word) (u : State) : Prop where
  pc : u.pc = p
  xW : u.xW = w
  xM : u.xM = s.xM
  xE : u.xE = s.xE
  cfg : u.cfg = s.cfg

/-- The moves of a window, then SEQ's turn: EXT has changed PMC, but the word read before is still in x[W]. -/
theorem runOp_window {p : Phase} {w : Word} (l r : List Move) {s : State} (hc : s.cfg.WF) (hp : s.pc = p) (hi : p ≠ .idle)
    (hw : s.xW = w) (hl : ∀ mv ∈ l, mv.between s.cfg = true) :
    ∃ u, Holding s p w u ∧ u.pmc = pmcAfter s.pmc l ∧ runOp (l ++ .seq :: r) s = andThen (seqStep u) (runOp r) := by
  have hne : s.pc ≠ .idle := hp ▸ hi
  obtain ⟨pm, n, v, h⟩ := runOp_between l s (.seq :: r) hc hne hl
  refine ⟨_, ?_, ?_, h.trans (runOp_cons .seq r _ hne Move.noConfusion)⟩
  · exact ⟨hp, hw, rfl, rfl, rfl⟩
  · rfl

/-- The moves `b`, a reading phase, and the window `l` after it: the write is met with the PMC of the read in x[W], whatever EXT wrote in `l`. -/
theorem runOp_read_window {p p' : Phase} (hread : ∀ u : State, u.pc = p → seqStep u = .next (goto p' (fetchPmc u))) (b l r : List Move)
    {s : State} (hc : s.cfg.WF) (hp : s.pc = p) (hi : p ≠ .idle) (hi' : p' ≠ .idle)
    (hb : ∀ mv ∈ b, mv.between s.cfg = true) (hl : ∀ mv ∈ l, mv.between s.cfg = true) :
    ∃ u, Holding s p' (pmcAfter s.pmc b) u ∧ runOp (b ++ .seq :: (l ++ .seq :: r)) s = andThen (seqStep u) (runOp r) := by
  obtain ⟨u, hu, hpmc, h⟩ := runOp_window b (l ++ .seq :: r) hc hp hi rfl hb
  rw [hread u hu.pc, andThen_next] at h
  obtain ⟨u', hu', -, h'⟩ := runOp_window l r (s := goto p' (fetchPmc u)) (hu.cfg ▸ hc) rfl hi' hpmc (hu.cfg ▸ hl)
  exact ⟨u', ⟨hu'.pc, hu'.xW, hu'.xM.trans hu.xM, hu'.xE.trans hu.xE, hu'.cfg.trans hu.cfg⟩, h.trans h'⟩

/-! ## The operations -/

theorem execStop_accepted {s : State} (m : Monitor) (hp : s.pc = .idle) {l : List Move} (hs : s.schedule = l) :
    execStop (BitVec.ofNat 32 m.val) s = runOp l (goto .stopP0 { s with xM := BitVec.ofNat 32 m.val }) := by
  rw [execStop, if_pos hp, monitorOf_ofNat, hs]

theorem execStart_accepted {s : State} (m : Monitor) {ev : Word} {e : Event} (hp : s.pc = .idle) (he : eventOf s.cfg ev = some e)
    {l : List Move} (hs : s.schedule = l) :
    execStart (BitVec.ofNat 32 m.val) ev s = runOp l (goto .startT0 { s with xM := BitVec.ofNat 32 m.val, xE := ev }) := by
  rw [execStart, if_pos hp, monitorOf_ofNat, he, hs]

theorem execSetup_accepted {s : State} (hp : s.pc = .idle) {l : List Move} (hs : s.schedule = l) :
    execSetup s = runOp l (goto .setupS0 s) := by
  rw [execSetup, if_pos hp, hs]

section

variable {s : State} (hc : s.cfg.WF) (hp : s.pc = .idle)

include hc hp in
/-- STOP's one window, from P0 to P1 (R117). -/
theorem execStop_window (m : Monitor) {a l rest : List Move} (ha : ∀ mv ∈ a, mv.between s.cfg = true)
    (hl : ∀ mv ∈ l, mv.between s.cfg = true) (hs : s.schedule = a ++ .seq :: (l ++ .seq :: rest)) :
    ∃ t, execStop (BitVec.ofNat 32 m.val) s = .next t ∧ t.pc = .idle ∧ t.schedule = rest ∧
      t.pmc = install (pmcAfter s.pmc a) (monMask m) (stop2 s.cfg m) := by
  obtain ⟨u, hu, hrun⟩ := runOp_read_window (s := goto .stopP0 { s with xM := BitVec.ofNat 32 m.val }) (fun _ => seqStep_stopP0)
    a l rest hc rfl Phase.noConfusion Phase.noConfusion ha hl
  have hm : monitorOf u.xM = some m := by rw [hu.xM]; exact monitorOf_ofNat m
  rw [seqStep_stopP1 hu.pc hm, andThen_next, runOp_idle rest _ (succeed_pc _), hu.xW, hu.cfg] at hrun
  exact ⟨_, (execStop_accepted m hp hs).trans hrun, rfl, rfl, rfl⟩

include hc in
/-- RESETM's one window, between its two steps (R114). -/
theorem execResetm_window (m : Monitor) {l rest : List Move} (hl : ∀ mv ∈ l, mv.between s.cfg = true)
    (hs : s.schedule = l ++ .seq :: rest) :
    ∃ t, execResetm m s = .next t ∧ t.schedule = rest ∧ t.pmc = install s.pmc (monMask m) (reset2 s.cfg m) := by
  obtain ⟨pm, n, v, h⟩ := resetmTail_between m l (resetmRead s) rest hc hl
  exact ⟨_, by rw [execResetm, hs, h], rfl, rfl⟩

include hc hp in
/-- START's two windows, from T0 to T1 and on to T2: both writes are made from the one word T0 reads (R116). -/
theorem execStart_windows (m : Monitor) {ev : Word} {e : Event} {n : Nibble} (he : eventOf s.cfg ev = some e)
    (hn : runOf s.cfg e = some n) {a l1 l2 rest : List Move} (ha : ∀ mv ∈ a, mv.between s.cfg = true)
    (h1 : ∀ mv ∈ l1, mv.between s.cfg = true) (h2 : ∀ mv ∈ l2, mv.between s.cfg = true)
    (hs : s.schedule = a ++ .seq :: (l1 ++ .seq :: (l2 ++ .seq :: rest))) :
    ∃ t, execStart (BitVec.ofNat 32 m.val) ev s = .next t ∧ t.pc = .idle ∧ t.schedule = rest ∧
      t.pmc = install (pmcAfter s.pmc a) (monMask m) (pairWord n m) := by
  obtain ⟨u, hu, hrun⟩ := runOp_read_window (s := goto .startT0 { s with xM := BitVec.ofNat 32 m.val, xE := ev })
    (fun _ => seqStep_startT0) a l1 (l2 ++ .seq :: rest) hc rfl Phase.noConfusion Phase.noConfusion ha h1
  have hm : monitorOf u.xM = some m := by rw [hu.xM]; exact monitorOf_ofNat m
  have hcu : u.cfg = s.cfg := hu.cfg
  rw [seqStep_startT1 hu.pc hm, andThen_next] at hrun
  obtain ⟨u', hu', -, hrun'⟩ := runOp_window l2 rest (s := goto .startT2 (storePmc _ u)) (hcu ▸ hc) rfl Phase.noConfusion hu.xW
    (hcu ▸ h2)
  have hcu' : u'.cfg = s.cfg := hu'.cfg.trans hcu
  have hm' : monitorOf u'.xM = some m := by rw [hu'.xM]; exact hm
  have he' : eventOf u'.cfg u'.xE = some e := by rw [hcu', hu'.xE]; exact (congrArg (eventOf s.cfg) hu.xE).trans he
  have hv : start2 u'.cfg m e = some (pairWord n m) := by rw [hcu', start2_eq, hn]; rfl
  rw [seqStep_startT2 hu'.pc hm' he' hv, andThen_next, runOp_idle rest _ (succeed_pc _), hu'.xW] at hrun'
  exact ⟨_, (execStart_accepted m hp he hs).trans (hrun.trans hrun'), rfl, rfl, rfl⟩

include hc hp in
/-- SETUP's three windows: each write is made from the word its own read fetched, with what EXT wrote up to that read (R115). -/
theorem execSetup_windows {a l1 b1 l2 b2 l3 rest : List Move} (ha : ∀ mv ∈ a, mv.between s.cfg = true)
    (h1 : ∀ mv ∈ l1, mv.between s.cfg = true) (hb1 : ∀ mv ∈ b1, mv.between s.cfg = true) (h2 : ∀ mv ∈ l2, mv.between s.cfg = true)
    (hb2 : ∀ mv ∈ b2, mv.between s.cfg = true) (h3 : ∀ mv ∈ l3, mv.between s.cfg = true)
    (hs : s.schedule = a ++ .seq :: (l1 ++ .seq :: (b1 ++ .seq :: (l2 ++ .seq :: (b2 ++ .seq :: (l3 ++ .seq :: rest)))))) :
    ∃ t, execSetup s = .next t ∧ t.pc = .idle ∧ t.schedule = rest ∧
      t.pmc = install (pmcAfter (install (pmcAfter (setupWord s.cfg (pmcAfter s.pmc a)) b1) (monMask 0) (reset2 s.cfg 0)) b2)
        (monMask 1) (reset2 s.cfg 1) := by
  obtain ⟨u, hu, hrun⟩ := runOp_read_window (s := goto .setupS0 s) (fun _ => seqStep_setupS0) a l1
    (b1 ++ .seq :: (l2 ++ .seq :: (b2 ++ .seq :: (l3 ++ .seq :: rest)))) hc rfl Phase.noConfusion Phase.noConfusion ha h1
  have hcu : u.cfg = s.cfg := hu.cfg
  rw [seqStep_setupS1 hu.pc, andThen_next, hu.xW, hcu] at hrun
  obtain ⟨v, hv, hrun'⟩ := runOp_read_window (s := goto .setupS2 (storePmc _ u)) (fun _ => seqStep_setupS2) b1 l2
    (b2 ++ .seq :: (l3 ++ .seq :: rest)) (hcu ▸ hc) rfl Phase.noConfusion Phase.noConfusion (hcu ▸ hb1) (hcu ▸ h2)
  have hcv : v.cfg = s.cfg := hv.cfg.trans hcu
  rw [seqStep_setupS3 hv.pc, andThen_next, hv.xW, hcv] at hrun'
  obtain ⟨x, hx, hrun''⟩ := runOp_read_window (s := goto .setupS4 (storePmc _ v)) (fun _ => seqStep_setupS4) b2 l3 rest
    (hcv ▸ hc) rfl Phase.noConfusion Phase.noConfusion (hcv ▸ hb2) (hcv ▸ h3)
  have hcx : x.cfg = s.cfg := hx.cfg.trans hcv
  rw [seqStep_setupS5 hx.pc, andThen_next, runOp_idle rest _ rfl, hx.xW, hcx] at hrun''
  exact ⟨_, (execSetup_accepted hp hs).trans (hrun.trans (hrun'.trans hrun'')), rfl, rfl, rfl⟩

end

/-- SETUP's first word as R115 writes it out. -/
theorem setupWord_eq (c : Cfg) (w : Word) : setupWord c w = (w &&& ~~~allMask) ||| stopAll c ||| flagsAll c :=
  (BitVec.or_assoc _ _ _).symm

/-- Settles O32: the four operations, window by window. -/
theorem interleavedWriteLost : Obligations.InterleavedWriteLost := by
  intro s m ev a l1 l2 l3 b1 b2 rest hc hp hlo hhi hbetween
  simp only [List.mem_append, or_imp, forall_and] at hbetween
  obtain ⟨⟨⟨⟨⟨ha, h1⟩, h2⟩, h3⟩, hb1⟩, hb2⟩ := hbetween
  obtain ⟨he, n, hn, hrun⟩ := eventOf_valid s.cfg hc ev hlo hhi
  refine ⟨execStop_window hc hp m ha h1, execResetm_window hc m h1, fun hs => ?_, fun hs => ?_⟩
  · obtain ⟨t, ht⟩ := execStart_windows hc hp m he hn ha h1 h2 hs
    exact ⟨t, n, hrun, ht⟩
  · rw [← setupWord_eq]
    exact execSetup_windows hc hp ha h1 hb1 h2 hb2 h3 hs

end Sys2Proof.Machine
end
section
/-! PROOFS. Words and instructions (O1, O2): what the decoder reads from a word with given fields (R68, R69, R72) and from a nibble (R90), and that
it undoes the encoder (R62). -/

namespace Sys2Proof

open Machine

/-! ## Command words (R68 to R70) -/

section

variable (mon ev : Word)

@[simp] theorem decodeCmd_setup : decodeCmd (cwOf 0 mon ev) = .ok .setup := by
  rw [decodeCmd, cwOp_cwOf]; rfl

@[simp] theorem decodeCmd_start : decodeCmd (cwOf 1 mon ev) = .ok (.start mon ev) := by
  rw [decodeCmd, cwOp_cwOf, cwMon_cwOf, cwEv_cwOf]; rfl

@[simp] theorem decodeCmd_stop : decodeCmd (cwOf 2 mon ev) = .ok (.stop mon) := by
  rw [decodeCmd, cwOp_cwOf, cwMon_cwOf]; rfl

@[simp] theorem decodeCmd_read : decodeCmd (cwOf 3 mon ev) = .ok (.read mon) := by
  rw [decodeCmd, cwOp_cwOf, cwMon_cwOf]; rfl

@[simp] theorem decodeCmd_resetm (m : Monitor) : decodeCmd (cwOf 4 (BitVec.ofNat 32 m.val) ev) = .ok (.resetm m) := by
  rw [decodeCmd, cwOp_cwOf, cwMon_cwOf, monitorOf_ofNat]; rfl

end

/-- Of the eight values of `op`, those from 5 on are reserved (R69, R70). -/
theorem decodeCmd_reservedOp {w : BitVec 67} (h : 5 ≤ (cwOp w).toNat) : decodeCmd w = .error (.reservedOp (cwOp w)) := by
  obtain ⟨n, hn⟩ := Nat.exists_eq_add_of_le' h
  rw [decodeCmd, hn]; rfl

/-! ## Codec request words (R72) -/

section

variable (k : Slot) (ev : Event)

@[simp] theorem decodeCodec_mask : decodeCodec (cqOf 0 k ev) = .mask k := by
  rw [decodeCodec, cqFn_cqOf, cqSlot_cqOf]; rfl

@[simp] theorem decodeCodec_encStart : decodeCodec (cqOf 1 k ev) = .encStart k ev := by
  rw [decodeCodec, cqFn_cqOf, cqSlot_cqOf, cqEv_cqOf]; rfl

@[simp] theorem decodeCodec_encStop : decodeCodec (cqOf 2 k ev) = .encStop k := by
  rw [decodeCodec, cqFn_cqOf, cqSlot_cqOf]; rfl

@[simp] theorem decodeCodec_encReset : decodeCodec (cqOf 3 k ev) = .encReset k := by
  rw [decodeCodec, cqFn_cqOf, cqSlot_cqOf]; rfl

end

/-! ## Nibbles (R62, R90) -/

/-- A nibble decodes to the command the sub-counter hardware reads it as. -/
theorem decodeNib_eq_ok_iff {c : Cfg} {k : Slot} {n : Nibble} {i : Instr} :
    decodeNib c k n = .ok i ↔
      (∃ e, nibCmd c n = .run e ∧ i = .nibRun k e) ∨ (nibCmd c n = .stop ∧ i = .nibStop k) ∨ (nibCmd c n = .reset ∧ i = .nibReset k) := by
  unfold decodeNib
  cases nibCmd c n <;> simp [eq_comm]

/-- The decoder rejects the reserved nibbles alone (R66). -/
theorem nibCmd_of_decodeNib_error {c : Cfg} {k : Slot} {n : Nibble} {d : DecodeError} (h : decodeNib c k n = .error d) :
    nibCmd c n = .reserved := by
  unfold decodeNib at h
  cases hn : nibCmd c n with
  | reserved => rfl
  | run e | stop | reset => rw [hn] at h; cases h

/-- Settles O2: what each of the three commands is read from, `RUN`'s value or a sentinel, is also its word. -/
theorem nibbleDecodesToOneCommand : Obligations.NibbleDecodesToOneCommand := by
  intro c k n i h
  obtain ⟨e, hn, rfl⟩ | ⟨hn, rfl⟩ | ⟨hn, rfl⟩ := decodeNib_eq_ok_iff.1 h
  · rw [encode, runOf_of_nibCmd c n e hn]; rfl
  · rw [encode, eq_of_nibCmd_stop c n hn]
  · rw [encode, (nibCmd_eq_reset_iff c n).1 hn]

/-- The NIB_RUN of a valid event has a word (R63, clause w5), and no other command is read from it (clauses w5, w6). -/
theorem decode_encode_nibRun {c : Cfg} (hc : c.WF) (k : Slot) {e : Event} (he : validEv c e.toNat = true) :
    ∃ w, encode c (.nibRun k e) = some w ∧ decode c w = .ok (.nibRun k e) := by
  obtain ⟨n, hn⟩ := Option.isSome_iff_exists.1 ((runOf_isSome c hc e).trans he)
  exact ⟨.nib k n, by rw [encode, hn]; rfl, decodeNib_eq_ok_iff.2 (.inl ⟨e, nibCmd_run c hc e n hn, rfl⟩)⟩

/-- Settles O1: format by format, the fields the encoder wrote are those the decoder reads. -/
theorem decodeEncodeAgree : Obligations.DecodeEncodeAgree := by
  intro c i hc hi
  cases i with
  | setup => exact ⟨_, rfl, decodeCmd_setup 0 0⟩
  | start mon ev => exact ⟨_, rfl, decodeCmd_start mon ev⟩
  | stop mon => exact ⟨_, rfl, decodeCmd_stop mon 0⟩
  | read mon => exact ⟨_, rfl, decodeCmd_read mon 0⟩
  | resetm m => exact ⟨_, rfl, decodeCmd_resetm 0 m⟩
  | mask k => exact ⟨_, rfl, congrArg Except.ok (decodeCodec_mask k 0)⟩
  | encStart k ev => exact ⟨_, rfl, congrArg Except.ok (decodeCodec_encStart k ev)⟩
  | encStop k => exact ⟨_, rfl, congrArg Except.ok (decodeCodec_encStop k 0)⟩
  | encReset k => exact ⟨_, rfl, congrArg Except.ok (decodeCodec_encReset k 0)⟩
  | nibRun k ev => exact decode_encode_nibRun hc k hi
  | nibStop k => exact ⟨_, rfl, decodeNib_eq_ok_iff.2 (.inr (.inl ⟨nibCmd_stop c hc, rfl⟩))⟩
  | nibReset k => exact ⟨_, rfl, decodeNib_eq_ok_iff.2 (.inr (.inr ⟨nibCmd_reset c, rfl⟩))⟩

end Sys2Proof
end

section
/-! PROOFS. From the word to the step (O4 to O6): a step at IDLE runs what its word decodes to, on each of the paths a word arrives by (R68 to R72),
and CNT's turn what the stored nibble decodes to (R90). -/

namespace Sys2Proof.Machine

/-- At IDLE the next move is taken off the schedule (log 3). -/
theorem step_eq_nextMove {s : State} {l : List Move} (hp : s.pc = .idle) (hs : s.schedule = l) : step s = nextMove l s := by
  rw [step, if_pos hp, hs]

/-! ## The command port and the internal path (R68 to R70) -/

theorem presentCaller_resetm {w : BitVec 67} (h : cwOp w = 4) (s : State) : presentCaller w s = .refused .internalOp :=
  if_pos h

theorem presentCaller_ok {w : BitVec 67} {i : Instr} (h : cwOp w ≠ 4) (hd : decodeCmd w = .ok i) (s : State) :
    presentCaller w s = exec i { s with xM := cwMon w, xE := cwEv w } := by
  rw [presentCaller, if_neg h, hd]

theorem presentCaller_error {w : BitVec 67} {d : DecodeError} (h : cwOp w ≠ 4) (hd : decodeCmd w = .error d) (s : State) :
    presentCaller w s = .refused (.undecodable d) := by
  rw [presentCaller, if_neg h, hd]

theorem presentInternal_ok {w : BitVec 67} {i : Instr} (h : cwOp w = 4) (hd : decodeCmd w = .ok i) (s : State) :
    presentInternal w s = exec i s := by
  rw [presentInternal, if_pos h, hd]

/-- Settles O4: RESETM's op is refused by the port itself, the reserved ops by the decoder, which reads no field an operation does not use. -/
theorem reservedOpsRefused : Obligations.ReservedOpsRefused := by
  refine ⟨fun s w rest hp hs => ⟨fun h4 => ?_, fun h5 => ?_⟩, fun mon ev m => ?_⟩
  · rw [step_eq_nextMove hp hs]
    exact presentCaller_resetm h4 _
  · have h4 : cwOp w ≠ 4 := fun h => absurd (h ▸ h5) (by decide)
    rw [step_eq_nextMove hp hs]
    exact presentCaller_error h4 (decodeCmd_reservedOp h5) _
  · exact ⟨decodeCmd_setup mon ev, decodeCmd_stop mon ev, decodeCmd_read mon ev, decodeCmd_resetm ev m⟩

/-! ## The codec's request path (R72, R80) -/

/-- Settles O6: the request path dispatches as decoding and `exec` do. -/
theorem codecCallAnywhere : Obligations.CodecCallAnywhere :=
  fun s w => (exec_decodeCodec w s).symm

/-! ## CNT's turn (R90 to R100) -/

section

variable {s : State} {k : Slot}

/-- CNT obeys the command of the stored nibble, unless it is NIB_RESET. -/
theorem cntStep_of_decodeNib {i : Instr} (hd : decodeNib s.cfg k (nib s.pmc k) = .ok i) (hi : i ≠ .nibReset k) :
    cntStep k s = exec i s := by
  obtain ⟨e, hn, rfl⟩ | ⟨hn, rfl⟩ | ⟨-, rfl⟩ := decodeNib_eq_ok_iff.1 hd
  · rw [cntStep, slotCmd, hn]; rfl
  · rw [cntStep, slotCmd, hn]; rfl
  · exact absurd rfl hi

/-- An idle slot is left as it is: its zeroing belongs to the write that stored the nibble (R93, log 7). -/
theorem cntStep_of_decodeNib_nibReset (hd : decodeNib s.cfg k (nib s.pmc k) = .ok (.nibReset k)) : cntStep k s = .next s := by
  obtain ⟨e, -, h⟩ | ⟨-, h⟩ | ⟨hn, -⟩ := decodeNib_eq_ok_iff.1 hd
  · cases h
  · cases h
  · rw [cntStep, slotCmd, hn]

theorem cntStep_reserved (h : slotCmd s.cfg s.pmc k = .reserved) : cntStep k s = .next (havocPair (pairOf k) s) := by
  rw [cntStep, h]

end

/-- A pair is undefined when it is neither quiet nor counting any event (R100, R102). -/
theorem undefinedPair_iff (c : Cfg) (w : Word) (p : Monitor) :
    undefinedPair c w p = true ↔ quiet c w p = false ∧ ∀ e, counting c w p e = false := by
  have h : undefinedPair c w p = (!quiet c w p && allEvents.all fun e => !counting c w p e) := by simp [undefinedPair, quiet]
  simp [h, mem_allEvents]

/-- In a counting pair each slot is under the pair's Run (R96). -/
theorem slotCmd_of_counting {c : Cfg} {w : Word} {k : Slot} {e : Event} (h : counting c w (pairOf k) e = true) :
    slotCmd c w k = .run e := by
  obtain ⟨-, hlow, hhigh⟩ := (counting_iff c w _ e).1 h
  obtain hk | hk := slot_cases k
  · rw [hk]; exact hlow
  · rw [hk]; exact hhigh

/-- A reserved nibble makes its pair undefined (R94). -/
theorem undefinedPair_of_reserved {c : Cfg} {w : Word} {k : Slot} (h : slotCmd c w k = .reserved) :
    undefinedPair c w (pairOf k) = true := by
  refine (undefinedPair_iff c w _).2 ⟨Bool.eq_false_iff.2 fun hq => ?_, fun e => Bool.eq_false_iff.2 fun hc => ?_⟩
  · have hk := (quiet_iff c w _).1 hq k rfl
    rw [h] at hk
    cases hk
  · exact NibCmd.noConfusion (h.symm.trans (slotCmd_of_counting hc))

section

variable (p : Monitor) (s : State)

/-! What HAVOC leaves in the counters: two draws in its own pair, the other pair's as they were (R100, log 4). -/

theorem havocPair_low : (havocPair p s).pm[lowSlot p] = Config.freeWord s.drawn := by
  rw [havocPair_pm, set_get, if_neg (lowSlot_ne_highSlot p p), set_get, if_pos rfl]

theorem havocPair_high : (havocPair p s).pm[highSlot p] = Config.freeWord (s.drawn + 1) := by
  rw [havocPair_pm, set_get, if_pos rfl]

theorem havocPair_other {j : Slot} (hj : pairOf j ≠ p) : (havocPair p s).pm[j] = s.pm[j] := by
  rw [havocPair_pm, set_get, if_neg (fun h => hj (by rw [h, pairOf_highSlot])), set_get,
    if_neg (fun h => hj (by rw [h, pairOf_lowSlot]))]

end

/-- Settles O5: each path is the meaning of the decoded instruction; where a nibble is none, the turn is a HAVOC. -/
theorem stepRunsDecoded : Obligations.StepRunsDecoded := by
  intro s rest hp
  refine ⟨fun w i hs h4 hd => ?_, fun w i hs h4 hd => ?_, fun w hs => ?_, fun k i hs hd hi => ?_, fun k hs hd => ?_,
    fun k d hs hd => ?_⟩
  · rw [step_eq_nextMove hp hs]
    exact presentCaller_ok h4 hd _
  · rw [step_eq_nextMove hp hs]
    exact presentInternal_ok h4 hd _
  · rw [step_eq_nextMove hp hs, nextMove]
  · rw [step_eq_nextMove hp hs]
    exact cntStep_of_decodeNib (s := { s with schedule := rest }) hd hi
  · rw [step_eq_nextMove hp hs]
    exact cntStep_of_decodeNib_nibReset (s := { s with schedule := rest }) hd
  · have hr : slotCmd s.cfg s.pmc k = .reserved := nibCmd_of_decodeNib_error hd
    rw [step_eq_nextMove hp hs]
    exact ⟨undefinedPair_of_reserved hr, _, cntStep_reserved (s := { s with schedule := rest }) hr, havocPair_low _ s, havocPair_high _ s,
      fun _ => havocPair_other _ s⟩

end Sys2Proof.Machine
end

section
/-! PROOFS. The Register Codec (O7 to O9): every word it answers is a nibble placed at its slot (R81 to R84), so its laws (R86) are said once,
of placement. -/

namespace Sys2Proof.Machine

/-! ## A nibble placed at its slot (R64, R86) -/

section

variable (n : Nibble) (k : Slot)

/-- L1: a placed nibble lies inside its slot's mask. -/
theorem place_and_not_mask : place n k &&& ~~~mask k = 0 := by
  apply BitVec.eq_of_getLsbD_eq
  intro i hi
  simp only [BitVec.getLsbD_and, BitVec.getLsbD_not, hi, place_getLsbD, mask_getLsbD]
  by_cases h : i < 4 * k.val + 4
  · simp +contextual [h]
  · simp [BitVec.getLsbD_of_ge n (i - 4 * k.val) (by omega)]

/-- L3: a placed nibble lies below the flags half. -/
theorem place_and_flagsHalf : place n k &&& 0xFFFF0000#32 = 0 := by revert n k; decide

/-- L7: placing a nibble loses no bit of it. -/
theorem place_toNat : (place n k).toNat = n.toNat * 2 ^ (4 * k.val) := by
  have hn : n.toNat < 2 ^ 4 := n.isLt
  have hk : 2 ^ (4 * k.val) ≤ 2 ^ 28 := Nat.pow_le_pow_right (by decide) (by omega)
  have hlt : n.toNat * 2 ^ (4 * k.val) < 2 ^ 4 * 2 ^ 28 := Nat.mul_lt_mul_of_lt_of_le hn hk (by decide)
  rw [place, BitVec.toNat_shiftLeft, BitVec.toNat_setWidth_of_le (by decide), Nat.shiftLeft_eq]
  exact Nat.mod_eq_of_lt hlt

theorem nib_place : nib (place n k) k = n := by
  apply BitVec.eq_of_getLsbD_eq
  intro i hi
  simp [nib_getElem, place_getLsbD, hi]

end

theorem place_inj {n n' : Nibble} {k : Slot} (h : place n k = place n' k) : n = n' := by
  rw [← nib_place n k, h, nib_place]

theorem nib_or (v w : Word) (k : Slot) : nib (v ||| w) k = nib v k ||| nib w k := by
  apply BitVec.eq_of_getLsbD_eq
  intro i hi
  simp [nib_getElem, hi]

/-- L4: clear-then-OR of a word inside the mask keeps what lies outside the mask. -/
theorem install_outside (w : Word) {K V : Word} (h : V &&& ~~~K = 0) : install w K V &&& ~~~K = w &&& ~~~K := by
  rw [install, BitVec.and_or_distrib_right, h, BitVec.and_assoc, BitVec.and_self]
  exact BitVec.or_zero

/-- L2: two slots share no bit. -/
theorem mask_and_mask {k t : Slot} (h : k ≠ t) : mask k &&& mask t = 0 := by revert k t; decide

/-! ## The words the codec answers (R81 to R84) -/

/-- ENC_START's word is the event's running pattern, placed. -/
theorem encStart_eq_some_iff {c : Cfg} {k : Slot} {e : Event} {v : Word} :
    encStart c k e = some v ↔ ∃ n, runOf c e = some n ∧ place n k = v :=
  Option.map_eq_some_iff

/-- L6: a running pattern's word is neither sentinel's. -/
theorem encStart_ne {c : Cfg} (hc : c.WF) {k : Slot} {e : Event} {v : Word} (h : encStart c k e = some v) :
    v ≠ encStop c k ∧ v ≠ encReset c k := by
  obtain ⟨n, hn, rfl⟩ := encStart_eq_some_iff.1 h
  obtain ⟨hstop, hreset⟩ := runOf_ne c hc e n hn
  exact ⟨fun h => hstop (place_inj h), fun h => hreset (place_inj h)⟩

/-- L6: different events have different words at a slot. -/
theorem encStart_inj {c : Cfg} (hc : c.WF) {k : Slot} {e e' : Event} {v : Word} (h : encStart c k e = some v)
    (h' : encStart c k e' = some v) : e = e' := by
  obtain ⟨n, hn, rfl⟩ := encStart_eq_some_iff.1 h
  obtain ⟨n', hn', hv⟩ := encStart_eq_some_iff.1 h'
  exact runOf_inj c hc e e' n hn (place_inj hv ▸ hn')

theorem encStop_ne_encReset {c : Cfg} (hc : c.WF) (k : Slot) : encStop c k ≠ encReset c k := by
  obtain ⟨-, -, hne, -⟩ := hc
  exact fun h => hne (place_inj h)

/-- Settles O9: each of the three words is its nibble placed, and the laws are those of placement. -/
theorem codecLaws : Obligations.CodecLaws := by
  refine ⟨fun c k V n h => ?_, fun _ _ => mask_and_mask, fun k => ?_, fun c k e e' v hc h => ?_⟩
  · have hV : V = place n k := by
      obtain ⟨e, hV, hn⟩ | ⟨rfl, rfl⟩ | ⟨rfl, rfl⟩ := h
      · obtain ⟨n', hn', rfl⟩ := encStart_eq_some_iff.1 hV
        rw [Option.some.inj (hn.symm.trans hn')]
      · rfl
      · rfl
    subst hV
    have hinside := place_and_not_mask n k
    refine ⟨hinside, place_and_flagsHalf n k, place_toNat n k, fun w => ⟨nib_install_slot w n k, install_outside w hinside, ?_⟩⟩
    rw [nib_or, nib_place]
  · rw [mask_eq_place]
    exact place_and_flagsHalf _ k
  · obtain ⟨hstop, hreset⟩ := encStart_ne hc h
    exact ⟨encStart_inj hc h, hstop, hreset, encStop_ne_encReset hc k⟩

/-! ## The answers (R80 to R84) -/

/-- Settles O7: MASK, ENC_STOP and ENC_RESET have a word for every slot, and answering it is all they do. -/
theorem codecAnswers : Obligations.CodecAnswers := fun _ _ => ⟨rfl, rfl, rfl⟩

/-- A valid event has its entry in the table of `RUN` (clause w5). -/
theorem runOf_of_validEv {c : Cfg} (hc : c.WF) {e : Event} (he : validEv c e.toNat = true) :
    ∃ n, c.run[e.toNat]? = some n ∧ runOf c e = some n := by
  obtain ⟨n, hn⟩ := Option.isSome_iff_exists.1 ((runOf_isSome c hc e).trans he)
  exact ⟨n, (if_pos he).symm.trans hn, hn⟩

section

variable {s : State} {e : Event}

theorem exec_encStart_of_runOf (k : Slot) {n : Nibble} (hn : runOf s.cfg e = some n) :
    exec (.encStart k e) s = .next (answer (place n k) s) := by
  rw [exec, execEncStart, encStart, hn]; rfl

theorem exec_encStart_invalid (k : Slot) (he : ¬ validEv s.cfg e.toNat = true) :
    exec (.encStart k e) s = .refused .codecPrecondition := by
  rw [exec, execEncStart, encStart, runOf, if_neg he]; rfl

end

/-- Settles O8: a valid event has a running pattern, which is answered placed; any other has no word (R82). -/
theorem encStartAnswers : Obligations.EncStartAnswers := by
  intro s k e hc
  refine ⟨fun hmin hmax => ?_, fun hout => ?_⟩
  · obtain ⟨n, hrun, hn⟩ := runOf_of_validEv hc ((validEv_iff s.cfg _).2 ⟨hmin, hmax⟩)
    exact ⟨n, hrun, exec_encStart_of_runOf k hn⟩
  · refine exec_encStart_invalid k fun he => ?_
    obtain ⟨hmin, hmax⟩ := (validEv_iff s.cfg _).1 he
    omega

end Sys2Proof.Machine
end

section
/-! PROOFS. A run nobody else writes into (O46): between the read and the write of PMC the word fetched stays good, so each write of SEQ leaves a
sound word (R26, R49), and no pair is undefined once SETUP has completed (R99, R100). -/

namespace Sys2Proof.Machine

/-! ## The words SEQ writes are sound -/

theorem soundWord_defined {c : Cfg} {w : Word} (h : soundWord c w = true) (p : Monitor) :
    flagsSet c w = true ∧ undefinedPair c w p = false := by
  simp only [soundWord, Bool.and_eq_true, Bool.not_eq_true'] at h
  obtain ⟨⟨hflags, h0⟩, h1⟩ := h
  obtain rfl | rfl := monitor_cases p
  · exact ⟨hflags, h0⟩
  · exact ⟨hflags, h1⟩

theorem nibReset_idle (c : Cfg) : NibCmd.active (nibCmd c c.nibReset) = false := by rw [nibCmd_reset]; rfl

section

variable {c : Cfg} (hc : c.WF) {w : Word}

include hc

theorem nibStop_idle : NibCmd.active (nibCmd c c.nibStop) = false := by rw [nibCmd_stop c hc]; rfl

/-- An idle command, Stop or Reset, in both nibbles of a monitor makes it quiet (R102). -/
theorem soundWord_install_idle {n : Nibble} (m : Monitor) (hn : NibCmd.active (nibCmd c n) = false) (h : soundWord c w = true) :
    soundWord c (install w (monMask m) (pairWord n m)) = true :=
  soundWord_install_pair c hc w n m h (quiet_not_undefined _ _ _ (quiet_install_own c w n m hn))

/-- START's word makes the monitor count its event: the flags are set, so it is chained (R96, R118). -/
theorem soundWord_install_start2 {m : Monitor} {e : Event} {v : Word} (hv : start2 c m e = some v) (h : soundWord c w = true) :
    soundWord c (install w (monMask m) v) = true := by
  rw [start2_eq] at hv
  obtain ⟨n, hn, rfl⟩ := Option.map_eq_some_iff.1 hv
  obtain ⟨hflags, -⟩ := soundWord_defined h m
  have hcounting : counting c (install w (monMask m) (pairWord n m)) m e = true :=
    (counting_install_own c hc w n m e hn).trans (chained_of_flagsSet c w m hflags)
  exact soundWord_install_pair c hc w n m h (counting_not_undefined _ _ _ e hcounting)

/-- SETUP's second and third writes leave the quiet word quiet (R115 (iii)). -/
theorem quietWord_install_reset2 (m : Monitor) (h : quietWord c w = true) : quietWord c (install w (monMask m) (reset2 c m)) = true :=
  quietWord_install_pair c hc w c.nibReset m h (nibReset_idle c)

end

/-! ## The part of `SoundRun` that does not speak of the schedule -/

/-- The invariants of `SoundRun`, without its premise on the moves to come. -/
structure SoundState (s : State) : Prop where
  inv : Inv s
  word : s.setupDone = true → soundWord s.cfg s.pmc = true
  window : windowHolds s

theorem soundRun_iff (s : State) : SoundRun s ↔ SoundState s ∧ ∀ mv ∈ s.schedule, mv.outside = false :=
  ⟨fun ⟨hinv, hmoves, hword, hwindow⟩ => ⟨⟨hinv, hword, hwindow⟩, hmoves⟩,
    fun ⟨⟨hinv, hword, hwindow⟩, hmoves⟩ => ⟨hinv, hmoves, hword, hwindow⟩⟩

namespace SoundState

/-- The counters, the draws, the codec's answer and the schedule are no part of it. -/
theorem update {s : State} (hs : SoundState s) (pm : Vector Word 4) (n : Nat) (v : Word) (l : List Move) :
    SoundState { s with pm := pm, drawn := n, codecOut := v, schedule := l } :=
  ⟨hs.inv, hs.word, hs.window⟩

/-- At IDLE no window is open. -/
theorem of_idle {s : State} (hc : s.cfg.WF) (hp : s.pc = .idle) (hword : s.setupDone = true → soundWord s.cfg s.pmc = true) :
    SoundState s :=
  ⟨inv_of_idle hc hp, hword, by rw [windowHolds, hp]; trivial⟩

/-! ## One agent's step -/

/-- SEQ's step: a read opens a window, and a write inside it finds in x[W] what PMC holds outside the nibbles it replaces. -/
theorem seqStep {s t : State} (hs : SoundState s) (h : Machine.seqStep s = .next t) : SoundState t := by
  have hinv := seqStep_keeps_inv hs.inv h
  obtain ⟨⟨hc, -⟩, hword, hwindow⟩ := hs
  unfold windowHolds at hwindow
  cases seqStep_effect h with
  | idle hp => exact of_idle hc hp hword
  | setupS0 hp | readR0 hp | readR1 hp => exact ⟨hinv, hword, trivial⟩
  | startT0 hp | stopP0 hp => exact ⟨hinv, hword, rfl⟩
  | setupS1 hp =>
    have hquiet := quietWord_setupWord s.cfg hc s.xW
    exact ⟨hinv, fun _ => soundWord_of_quietWord _ _ hquiet, hquiet⟩
  | setupS2 hp | setupS4 hp =>
    rw [hp] at hwindow
    exact ⟨hinv, hword, hwindow, rfl⟩
  | setupS3 hp =>
    rw [hp] at hwindow
    obtain ⟨hquiet, hW⟩ := hwindow
    have hquiet' := quietWord_install_reset2 hc 0 (hW ▸ hquiet)
    exact ⟨hinv, fun _ => soundWord_of_quietWord _ _ hquiet', hquiet'⟩
  | setupS5 hp =>
    rw [hp] at hwindow
    obtain ⟨hquiet, hW⟩ := hwindow
    have hquiet' := quietWord_install_reset2 hc 1 (hW ▸ hquiet)
    exact ⟨hinv, fun _ => soundWord_of_quietWord _ _ hquiet', trivial⟩
  | startT1 hp m hm =>
    rw [hp] at hwindow
    refine ⟨hinv, fun hd => soundWord_install_idle hc m (nibReset_idle _) (hwindow ▸ hword hd), fun m' hm' => ?_⟩
    cases hm.symm.trans hm'
    exact (install_pair_outside s.xW s.cfg.nibReset m).symm
  | startT2 hp m hm e he v hv =>
    rw [hp] at hwindow
    rw [install_congr _ _ _ v (hwindow m hm)] at hinv ⊢
    exact ⟨hinv, fun hd => soundWord_install_start2 hc hv (hword hd), trivial⟩
  | stopP1 hp m hm =>
    rw [hp] at hwindow
    exact ⟨hinv, fun hd => soundWord_install_idle hc m (nibStop_idle hc) (hwindow ▸ hword hd), trivial⟩

end SoundState

/-- A move that does not come from outside is SEQ's step, or leaves all but the counters, the draws and the codec's answer. -/
theorem agentStep_inside {mv : Move} {s t : State} (hmv : mv.outside = false) (h : agentStep mv s = .next t) :
    seqStep s = .next t ∨ ∃ pm n v, t = { s with pm := pm, drawn := n, codecOut := v } := by
  cases mv with
  | seq => exact .inl h
  | cnt k => obtain ⟨⟨pm, n, rfl⟩, -⟩ := cntStep_frame h; exact .inr ⟨pm, n, s.codecOut, rfl⟩
  | codec w => obtain ⟨v, rfl⟩ := codecStep_cases h; exact .inr ⟨s.pm, s.drawn, v, rfl⟩
  | extRead | pause => cases h; exact .inr ⟨_, _, _, rfl⟩
  | extWrite _ | hwReset => cases hmv
  | caller _ | internal _ => cases h

theorem SoundState.agentStep {mv : Move} {s t : State} (hmv : mv.outside = false) (hs : SoundState s)
    (h : Machine.agentStep mv s = .next t) : SoundState t := by
  obtain hseq | ⟨pm, n, v, rfl⟩ := agentStep_inside hmv h
  · exact hs.seqStep hseq
  · exact hs.update pm n v s.schedule

/-! ## An operation among the scheduled moves -/

/-- RESETM, on its own at IDLE, between its two steps and after them: outside the monitor's nibbles x[W] is PMC. -/
structure ResetmWindow (m : Monitor) (s : State) : Prop where
  sound : SoundState s
  pc : s.pc = .idle
  outside : s.xW &&& ~~~monMask m = s.pmc &&& ~~~monMask m

namespace ResetmWindow

variable {m : Monitor} {s t : State}

theorem agentStep {mv : Move} (hmv : mv.outside = false) (hs : ResetmWindow m s) (h : Machine.agentStep mv s = .next t) :
    ResetmWindow m t := by
  obtain hseq | ⟨pm, n, v, rfl⟩ := agentStep_inside hmv h
  · rw [seqStep, hs.pc] at hseq
    cases hseq
    exact hs
  · exact ⟨hs.sound.update pm n v s.schedule, hs.pc, hs.outside⟩

/-- RESETM's write (R114). -/
theorem resetmWrite (hs : ResetmWindow m s) : ResetmWindow m (Machine.resetmWrite m s) := by
  obtain ⟨⟨⟨hc, -⟩, hword, -⟩, hp, houtside⟩ := hs
  rw [Machine.resetmWrite, install_congr _ _ _ _ houtside]
  refine ⟨.of_idle hc hp fun hd => soundWord_install_idle hc m (nibReset_idle _) (hword hd), hp, houtside.trans ?_⟩
  exact (install_pair_outside s.pmc s.cfg.nibReset m).symm

end ResetmWindow

section

variable {l : List Move} (hl : ∀ mv ∈ l, mv.outside = false) {s t : State}

include hl

theorem SoundState.runOp (hs : SoundState s) (h : Machine.runOp l s = .next t) : SoundState t :=
  runOp_keeps (P := SoundState) (fun s l hs => hs.update s.pm s.drawn s.codecOut l) (fun _ _ => SoundState.seqStep) l
    (fun mv hmem _ _ => SoundState.agentStep (hl mv hmem)) s t hs h

theorem ResetmWindow.resetmTail {m : Monitor} (hs : ResetmWindow m s) (h : Machine.resetmTail m l s = .next t) : ResetmWindow m t :=
  resetmTail_keeps (P := ResetmWindow m) (fun s l hs => ⟨hs.sound.update s.pm s.drawn s.codecOut l, hs.pc, hs.outside⟩) m
    (fun _ => ResetmWindow.resetmWrite) l (fun mv hmem _ _ => ResetmWindow.agentStep (hl mv hmem)) s t hs h

end

/-! ## Commands -/

/-- The phases an operation is accepted into (R110). -/
def Phase.IsFirst (p : Phase) : Prop := p = .setupS0 ∨ p = .startT0 ∨ p = .stopP0 ∨ p = .readR0

/-- What CALLER's word does: it is answered at once, or an operation runs from its first phase with valid arguments in its latches
(R110, R144). -/
theorem presentCaller_effect {w : BitVec 67} {s t : State} (h : presentCaller w s = .next t) :
    s.pc = .idle ∧
      ((∃ st v, t = { s with xM := cwMon w, xE := cwEv w, status := st, value := v }) ∨
       ∃ p, p.IsFirst ∧ latchesHold (goto p { s with xM := cwMon w, xE := cwEv w }) = true ∧
        runOp s.schedule (goto p { s with xM := cwMon w, xE := cwEv w }) = .next t) := by
  obtain h | h | h | h := presentCaller_cases h
  · obtain ⟨hp, hrun⟩ := execSetup_cases h
    exact ⟨hp, .inr ⟨.setupS0, .inl rfl, rfl, hrun⟩⟩
  · obtain ⟨hp, ⟨rfl, -⟩ | ⟨m, e, hm, he, hrun⟩⟩ := execStart_cases h
    · exact ⟨hp, .inl ⟨s.cfg.stEinval, s.value, by rw [fail, ← hp]⟩⟩
    · exact ⟨hp, .inr ⟨.startT0, .inr (.inl rfl), by simpa [latchesHold, hm] using Option.isSome_of_eq_some he, hrun⟩⟩
  · obtain ⟨hp, ⟨rfl, -⟩ | ⟨m, hm, hrun⟩⟩ := execStop_cases h
    · exact ⟨hp, .inl ⟨s.cfg.stEinval, s.value, by rw [fail, ← hp]⟩⟩
    · exact ⟨hp, .inr ⟨.stopP0, .inr (.inr (.inl rfl)), Option.isSome_of_eq_some hm, hrun⟩⟩
  · obtain ⟨hp, ⟨rfl, -⟩ | ⟨m, hm, hrun⟩⟩ := execRead_cases h
    · exact ⟨hp, .inl ⟨s.status, readSentinel, rfl⟩⟩
    · exact ⟨hp, .inr ⟨.readR0, .inr (.inr (.inr rfl)), Option.isSome_of_eq_some hm, hrun⟩⟩

section

variable {s t : State} (hl : ∀ mv ∈ s.schedule, mv.outside = false) (hs : SoundState s)

include hl hs

theorem SoundState.presentCaller {w : BitVec 67} (h : Machine.presentCaller w s = .next t) : SoundState t := by
  obtain ⟨hp, ⟨st, v, rfl⟩ | ⟨p, hfirst, hlatches, hrun⟩⟩ := presentCaller_effect h
  · exact .of_idle hs.inv.1 hp hs.word
  · have hwindow : windowHolds (goto p { s with xM := cwMon w, xE := cwEv w }) := by
      obtain rfl | rfl | rfl | rfl := hfirst <;> trivial
    have haccepted : SoundState (goto p { s with xM := cwMon w, xE := cwEv w }) := ⟨⟨hs.inv.1, hlatches⟩, hs.word, hwindow⟩
    exact haccepted.runOp hl hrun

theorem SoundState.execResetm {m : Monitor} (hp : s.pc = .idle) (h : Machine.execResetm m s = .next t) : SoundState t :=
  have hread : ResetmWindow m (resetmRead s) := ⟨.of_idle hs.inv.1 hp hs.word, hp, rfl⟩
  (hread.resetmTail hl h).sound

end

/-! ## The step -/

theorem presentCaller_schedule {w : BitVec 67} {s t : State} (h : presentCaller w s = .next t) : t.schedule <:+ s.schedule := by
  obtain ⟨-, ⟨st, v, rfl⟩ | ⟨p, -, -, hrun⟩⟩ := presentCaller_effect h
  · exact List.suffix_rfl
  · exact runOp_schedule _ _ t hrun

/-- A step takes moves off the front of the schedule and adds none. -/
theorem step_schedule {s t : State} (h : step s = .next t) : t.schedule <:+ s.schedule := by
  obtain ⟨-, hrun⟩ | ⟨-, -, rfl⟩ | ⟨-, mv, rest, hcons, hmv⟩ := step_cases h
  · exact runOp_schedule _ s t hrun
  · exact List.suffix_rfl
  · have hrest : t.schedule <:+ rest := by
      obtain ⟨w, -, hw⟩ | ⟨w, -, hw⟩ | hagent := hmv
      · exact presentCaller_schedule hw
      · obtain ⟨m, hm⟩ := presentInternal_cases hw
        exact resetmTail_schedule m rest _ t hm
      · rw [(agentStep_frame hagent).2]
    rw [hcons]
    exact hrest.trans (List.suffix_cons mv rest)

theorem SoundState.step {s t : State} (hl : ∀ mv ∈ s.schedule, mv.outside = false) (hs : SoundState s)
    (h : Machine.step s = .next t) : SoundState t := by
  obtain ⟨-, hrun⟩ | ⟨-, -, rfl⟩ | ⟨hp, mv, rest, hcons, hmv⟩ := step_cases h
  · exact hs.runOp hl hrun
  · exact hs
  · rw [hcons, List.forall_mem_cons] at hl
    obtain ⟨hhead, hrest⟩ := hl
    have hs' : SoundState { s with schedule := rest } := hs.update s.pm s.drawn s.codecOut rest
    obtain ⟨w, -, hw⟩ | ⟨w, -, hw⟩ | hagent := hmv
    · exact SoundState.presentCaller hrest hs' hw
    · obtain ⟨m, hm⟩ := presentInternal_cases hw
      exact SoundState.execResetm hrest hs' hp hm
    · exact hs'.agentStep hhead hagent

/-- Settles O46: the invariants go through every move that is not from outside, and no step schedules a move; a sound word has every pair
defined. -/
theorem noUndefinedPairAfterSetup : Obligations.NoUndefinedPairAfterSetup := by
  refine ⟨fun s t hs h => ?_, fun s p hs hd => ?_⟩
  · obtain ⟨hsound, hmoves⟩ := (soundRun_iff s).1 hs
    exact (soundRun_iff t).2 ⟨hsound.step hmoves h, fun mv hmem => hmoves mv ((step_schedule h).subset hmem)⟩
  · obtain ⟨hsound, -⟩ := (soundRun_iff s).1 hs
    exact soundWord_defined (hsound.word hd) p

end Sys2Proof.Machine
end

section
/-! PROOFS. The slot commands and the status of a pair (O10, O14, O15, O17 to O21): what each command leaves in the counters (R90 to R100), when a counter
can change at all (R103), and the one status a pair has (R102). -/

namespace Sys2Proof.Machine

/-! ## The status of a pair (R96, R100, R102) -/

/-- In a counting pair both slots run, so it is not quiet. -/
theorem counting_not_quiet {c : Cfg} {w : Word} {p : Monitor} {e : Event} (h : counting c w p e = true) : quiet c w p = false := by
  obtain ⟨-, hlow, -⟩ := (counting_iff c w p e).1 h
  simp [quiet, hlow, NibCmd.active]

/-- Settles O19: undefined is what is neither quiet nor counting, and no counting pair is quiet. -/
theorem pairStatusTrichotomy : Obligations.PairStatusTrichotomy := by
  intro c w p
  refine ⟨?_, fun ⟨hq, hu⟩ => ?_, fun ⟨hq, e, he⟩ => ?_, fun ⟨hu, e, he⟩ => ?_⟩
  · by_cases hq : quiet c w p = true
    · exact .inl hq
    · by_cases he : ∃ e, counting c w p e = true
      · exact .inr (.inr he)
      · simp only [not_exists, Bool.not_eq_true] at hq he
        exact .inr (.inl ((undefinedPair_iff c w p).2 ⟨hq, he⟩))
  · simp [quiet_not_undefined c w p hq] at hu
  · simp [counting_not_quiet he] at hq
  · simp [counting_not_undefined c w p e he] at hu

/-! ## COUNT (R98) -/

theorem low_add_one (hi lo : Word) : (hi ++ lo + 1#64 : Count).extractLsb' 0 32 = lo + 1#32 := by
  apply BitVec.eq_of_toNat_eq
  rw [low_toNat, BitVec.toNat_add, append_toNat, BitVec.toNat_add]
  simp only [BitVec.toNat_ofNat]
  omega

/-- The low half carries into the high half exactly when it wraps. -/
theorem high_add_one (hi lo : Word) :
    (hi ++ lo + 1#64 : Count).extractLsb' 32 32 = if lo = 0xFFFFFFFF#32 then hi + 1#32 else hi := by
  have hones : lo = 0xFFFFFFFF#32 ↔ lo.toNat = 2 ^ 32 - 1 := BitVec.toNat_eq
  apply BitVec.eq_of_toNat_eq
  rw [high_toNat, BitVec.toNat_add, append_toNat]
  by_cases h : lo.toNat = 2 ^ 32 - 1
  · rw [if_pos (hones.2 h), BitVec.toNat_add]
    simp only [BitVec.toNat_ofNat]
    omega
  · rw [if_neg (mt hones.1 h)]
    simp only [BitVec.toNat_ofNat]
    omega

/-- Settles O14: the halves of the count plus one; a count of all ones is -1. -/
theorem countCarries : Obligations.CountCarries := by
  intro s p
  refine ⟨?_, ?_, fun h => ?_⟩
  · rw [countPair_pm, setPair_low]
    exact low_add_one _ _
  · rw [countPair_pm, setPair_high]
    exact high_add_one _ _
  · rw [count_countPair, h]
    rfl

/-! ## The commands, obeyed once -/

theorem exec_nibRun_undefined {s : State} {k : Slot} (e : Event) (h : undefinedPair s.cfg s.pmc (pairOf k) = true) :
    exec (.nibRun k e) s = .next (havocPair (pairOf k) s) := by
  obtain ⟨-, hcounting⟩ := (undefinedPair_iff _ _ _).1 h
  simp [exec, execNibRun, hcounting, h]

/-- Settles O15: the turn is one HAVOC of the pair. -/
theorem runInUndefinedPairHavocs : Obligations.RunInUndefinedPairHavocs :=
  fun s _ e h => ⟨_, exec_nibRun_undefined e h, havocPair_low _ s, havocPair_high _ s, fun _ => havocPair_other _ s⟩

/-- Settles O17: NIB_STOP is no change at all, NIB_RESET a change of one counter. -/
theorem stopHoldsResetZeroes : Obligations.StopHoldsResetZeroes := by
  refine fun s k => ⟨rfl, s.pm.set k 0, rfl, ?_, fun j hj => ?_⟩
  · rw [set_get, if_pos rfl]
  · rw [set_get, if_neg hj]

/-! ## The PMC write (R95) -/

/-- A store whose only reset nibble is slot k's zeroes that slot's counter. -/
theorem resetCounters_of_only {c : Cfg} {w : Word} {k : Slot} (hk : nib w k = c.nibReset) (hother : ∀ j, j ≠ k → nib w j ≠ c.nibReset)
    (pm : Vector Word 4) : resetCounters c w pm = pm.set k 0 := by
  refine counters_ext _ _ fun j => ?_
  rw [resetCounters_get, set_get]
  by_cases hj : j = k
  · subst hj
    rw [if_pos hk, if_pos rfl]
  · rw [if_neg (hother j hj), if_neg hj]

/-- Settles O18: both store the word and zero the one counter. -/
theorem pmcWriteRunsResetCommand : Obligations.PmcWriteRunsResetCommand := by
  intro s v k hk hother
  have hpm := resetCounters_of_only hk hother s.pm
  exact congrArg (fun pm => Host.Outcome.next { s with pmc := v, pm := pm }) hpm

/-- SEQ's step writes PMC as the port does, and says so in its access, or leaves PMC and the counters (R95, R103). -/
theorem seqStep_pmcWrite {s t : State} (h : seqStep s = .next t) :
    (t.pm = resetCounters s.cfg t.pmc s.pm ∧ t.trace = .wrPmc t.pmc :: s.trace) ∨
      (t.pm = s.pm ∧ t.pmc = s.pmc ∧ ∀ v, t.trace ≠ .wrPmc v :: s.trace) := by
  cases seqStep_effect h with
  | setupS1 | setupS3 | setupS5 | startT1 | startT2 | stopP1 => exact .inl ⟨rfl, rfl⟩
  | setupS0 | setupS2 | setupS4 | startT0 | stopP0 | readR0 | readR1 => exact .inr ⟨rfl, rfl, by simp⟩
  | idle => exact .inr ⟨rfl, rfl, by simp⟩

/-- Settles O10: EXT's step is the port's write; SEQ's is one when its access says so. -/
theorem pmcWriteEffect : Obligations.PmcWriteEffect := by
  refine ⟨fun s v => ⟨_, wrPmc_pm_get v s, rfl⟩, fun s t v h htrace => ?_⟩
  obtain ⟨hpm, hwrite⟩ | ⟨-, -, hno⟩ := seqStep_pmcWrite h
  · rw [hwrite] at htrace
    have hv : t.pmc = v := by simpa using htrace
    rw [hpm, hv]
    exact ⟨rfl, resetCounters_get _ _ _⟩
  · exact absurd htrace (hno v)

/-! ## How a counter can change (R103) -/

/-- After a PMC write of `v` a counter is as it was, or is zero under its reset nibble. -/
theorem resetCounters_get_cases (c : Cfg) (v : Word) (pm : Vector Word 4) (k : Slot) :
    (resetCounters c v pm)[k] = pm[k] ∨ ((resetCounters c v pm)[k] = 0 ∧ nib v k = c.nibReset) := by
  rw [resetCounters_get]
  by_cases h : nib v k = c.nibReset
  · exact .inr ⟨if_pos h, h⟩
  · exact .inl (if_neg h)

/-- At CNT's turn at slot j a counter is as it was, or it is of the slot's pair, and that pair has counted or is undefined. -/
theorem cntStep_counter {j : Slot} {s t : State} (h : cntStep j s = .next t) (k : Slot) :
    t.pm[k] = s.pm[k] ∨ (pairOf j = pairOf k ∧
      ((∃ e, counting s.cfg s.pmc (pairOf k) e = true ∧ count t (pairOf k) = count s (pairOf k) + 1) ∨
        undefinedPair s.cfg s.pmc (pairOf k) = true)) := by
  by_cases hjk : pairOf j = pairOf k
  · rw [← hjk]
    obtain rfl | ⟨⟨e, he⟩, rfl⟩ | ⟨hu, -⟩ := cntStep_cases h
    · exact .inl rfl
    · exact .inr ⟨rfl, .inl ⟨e, he, count_countPair _ s⟩⟩
    · exact .inr ⟨rfl, .inr hu⟩
  · obtain ⟨-, hother, -⟩ := cntStep_frame h
    exact .inl (hother k (Ne.symm hjk))

/-- Settles O20: EXT and SEQ change a counter by a PMC write only, CNT in its own pair only, the codec none. -/
theorem counterFrame : Obligations.CounterFrame := by
  refine ⟨fun mv s t k h => ?_, fun s k => cntStep_quiet⟩
  cases mv with
  | seq =>
    obtain ⟨hpm, hwrite⟩ | ⟨hpm, -⟩ := seqStep_pmcWrite h
    · rw [hpm]
      exact (resetCounters_get_cases s.cfg t.pmc s.pm k).imp_right fun ⟨hzero, hnib⟩ => .inl ⟨hzero, hnib, .inr ⟨rfl, hwrite⟩⟩
    · exact .inl (by rw [hpm])
  | extWrite v =>
    cases h
    exact (resetCounters_get_cases s.cfg v s.pm k).imp_right fun ⟨hzero, hnib⟩ => .inl ⟨hzero, hnib, .inl rfl⟩
  | cnt j =>
    obtain hsame | ⟨hjk, ⟨e, he, hcount⟩ | hu⟩ := cntStep_counter h k
    · exact .inl hsame
    · exact .inr (.inr (.inl ⟨j, e, rfl, hjk, he, hcount⟩))
    · exact .inr (.inr (.inr (.inl ⟨j, rfl, hjk, hu⟩)))
  | codec w => obtain ⟨v, rfl⟩ := codecStep_cases h; exact .inl rfl
  | extRead | pause => cases h; exact .inl rfl
  | hwReset => exact .inr (.inr (.inr (.inr rfl)))
  | caller _ | internal _ => cases h

/-! ## The bits without effect (R24, R101) -/

theorem xor_bitWord_getLsbD (w : Word) {b : Fin 32} {i : Nat} (h : i ≠ b.val) : (w ^^^ bitWord b).getLsbD i = w.getLsbD i := by
  simp [bitWord_getLsbD, h]

/-- The nibbles lie below bit 16 (R22). -/
theorem nib_xor_bitWord (w : Word) {b : Fin 32} (hb : 16 ≤ b.val) (k : Slot) : nib (w ^^^ bitWord b) k = nib w k := by
  apply BitVec.eq_of_getLsbD_eq
  intro i hi
  rw [nib_getLsbD, nib_getLsbD, xor_bitWord_getLsbD w (by omega)]

theorem chained_xor_bitWord (c : Cfg) (w : Word) {b : Fin 32} (h01 : b ≠ c.fCh01) (h23 : b ≠ c.fCh23) (p : Monitor) :
    chained c (w ^^^ bitWord b) p = chained c w p := by
  rw [chained, chained, xor_bitWord_getLsbD w (Fin.val_ne_of_ne h01.symm), xor_bitWord_getLsbD w (Fin.val_ne_of_ne h23.symm)]

/-- CNT's turn reads of PMC the slot's command and the status of its pair: under another word in which these are the same it does the same. -/
theorem cntStep_congr {k : Slot} {s t : State} {w : Word} (hcmd : slotCmd s.cfg w k = slotCmd s.cfg s.pmc k)
    (hcounting : ∀ e, counting s.cfg w (pairOf k) e = counting s.cfg s.pmc (pairOf k) e)
    (hundefined : undefinedPair s.cfg w (pairOf k) = undefinedPair s.cfg s.pmc (pairOf k)) (h : cntStep k s = .next t) :
    cntStep k { s with pmc := w } = .next { t with pmc := w } := by
  unfold cntStep at h ⊢
  rw [hcmd]
  cases hc : slotCmd s.cfg s.pmc k with
  | run e =>
    rw [hc] at h
    cases h
    simp only [execNibRun, hcounting, hundefined]
    split_ifs <;> rfl
  | stop | reset | reserved =>
    rw [hc] at h
    cases h
    rfl

/-- Settles O21: such a bit is in no nibble and is no chain flag, and CNT's turn leaves PMC. -/
theorem uninterpretedBitsHaveNoEffect : Obligations.UninterpretedBitsHaveNoEffect := by
  intro s b hb h01 h23
  have hnib := nib_xor_bitWord s.pmc hb
  have hstatus := fun p => status_congr s.cfg _ _ p (fun k _ => hnib k) (chained_xor_bitWord s.cfg s.pmc h01 h23 p)
  refine ⟨fun p e => ?_, fun k t h => ?_⟩
  · obtain ⟨hcounting, hrest⟩ := hstatus p
    exact ⟨hcounting e, hrest⟩
  · obtain ⟨hcounting, hundefined, -⟩ := hstatus (pairOf k)
    obtain ⟨⟨pm, n, rfl⟩, -⟩ := cntStep_frame h
    exact cntStep_congr (congrArg (nibCmd s.cfg) (hnib k)) hcounting hundefined h

end Sys2Proof.Machine
end

section
/-! PROOFS. Every step keeps the machine's invariant (O42; R30, R110): the latches are loaded and validated when a command is accepted, and no move
of an operation touches them but a hardware reset, which ends it. -/

namespace Sys2Proof.Machine

theorem runOp_keeps_inv {l : List Move} {s t : State} (hs : Inv s) (h : runOp l s = .next t) : Inv t :=
  runOp_keeps (P := Inv) (fun _ _ hu => hu) (fun _ _ => seqStep_keeps_inv) l (fun _ _ _ _ => agentStep_keeps_inv) s t hs h

/-- RESETM's write touches neither the phase nor the argument latches. -/
theorem execResetm_keeps_inv {m : Monitor} {s t : State} (hs : Inv s) (h : execResetm m s = .next t) : Inv t :=
  resetmTail_keeps (P := Inv) (fun _ _ hu => hu) m (fun _ hu => hu) s.schedule (fun _ _ _ _ => agentStep_keeps_inv) (resetmRead s) t hs h

/-- CALLER's word is answered at IDLE, or its operation starts with valid arguments in the latches. -/
theorem presentCaller_keeps_inv {w : BitVec 67} {s t : State} (hs : Inv s) (h : presentCaller w s = .next t) : Inv t := by
  obtain ⟨hc, -⟩ := hs
  obtain ⟨hp, ⟨st, v, rfl⟩ | ⟨p, -, hlatches, hrun⟩⟩ := presentCaller_effect h
  · exact inv_of_idle hc hp
  · have haccepted : Inv (goto p { s with xM := cwMon w, xE := cwEv w }) := ⟨hc, hlatches⟩
    exact runOp_keeps_inv haccepted hrun

/-- Settles O42: a step is an operation going on, nothing, a command from CALLER, RESETM, or one agent's step. -/
theorem invKept : Obligations.InvKept := by
  intro s t hs h
  obtain ⟨-, hrun⟩ | ⟨-, -, rfl⟩ | ⟨-, mv, rest, -, hmv⟩ := step_cases h
  · exact runOp_keeps_inv hs hrun
  · exact hs
  · have hrest : Inv { s with schedule := rest } := hs
    obtain ⟨w, -, hw⟩ | ⟨w, -, hw⟩ | hagent := hmv
    · exact presentCaller_keeps_inv hrest hw
    · obtain ⟨m, hm⟩ := presentInternal_cases hw
      exact execResetm_keeps_inv hrest hm
    · exact agentStep_keeps_inv hrest hagent

end Sys2Proof.Machine
end

section
/-! PROOFS. The operations uninterrupted (O22 to O24, O31): with nothing scheduled SEQ goes on alone, so each operation is its port accesses in
order (R115 to R117), and its end state is what they leave. -/

namespace Sys2Proof.Machine

/-! ## SEQ alone -/

/-- One port access of an operation that goes on alone. -/
theorem finish_seqStep {s t : State} (n : Nat) (hp : s.pc ≠ .idle) (h : seqStep s = .next t) : finish (n + 1) s = finish n t := by
  rw [finish, if_neg hp, h, andThen_next]

theorem finish_idle {s : State} (n : Nat) (hp : s.pc = .idle) : finish n s = .next s := by
  cases n with
  | zero => rfl
  | succ n => rw [finish, if_pos hp]

/-! ## The words the operations leave -/

/-- SETUP's last two writes, RESETM(0) and RESETM(1), on the word w (R114, R115). -/
def resetBoth (c : Cfg) (w : Word) : Word := install (install w (monMask 0) (reset2 c 0)) (monMask 1) (reset2 c 1)

/-- Clear-then-OR is done once: done again it changes nothing. -/
theorem install_install (w K V : Word) : install (install w K V) K V = install w K V := by
  apply BitVec.eq_of_getLsbD_eq
  intro i _
  simp only [install_getLsbD]
  cases hK : K.getLsbD i
  · simp
  · simp

/-- The reserved bits lie above the nibbles (R24). -/
theorem install_pair_rsvd (c : Cfg) (w : Word) (n : Nibble) (m : Monitor) :
    install w (monMask m) (pairWord n m) &&& rsvdMask c = w &&& rsvdMask c := by
  apply BitVec.eq_of_getLsbD_eq
  intro i _
  rw [BitVec.getLsbD_and, BitVec.getLsbD_and]
  by_cases hlow : i < 16
  · simp [rsvdMask_getLsbD_of_low c hlow]
  · rw [getLsbD_install_pair_high w n m i (by omega)]

theorem nib_resetBoth (c : Cfg) (w : Word) (k : Slot) : nib (resetBoth c w) k = c.nibReset := by
  rw [resetBoth, reset2_eq, reset2_eq, nib_install_pair, nib_install_pair]
  obtain hk | hk := monitor_cases (pairOf k)
  · simp [hk]
  · simp [hk]

/-- The word SETUP ends with is made from the reserved bits of the word it read (R118), and it keeps them. -/
theorem resetBoth_setupWord_idem {c : Cfg} (hc : c.WF) (w : Word) :
    resetBoth c (setupWord c (resetBoth c (setupWord c w))) = resetBoth c (setupWord c w) := by
  have hrsvd : resetBoth c (setupWord c w) &&& rsvdMask c = w &&& rsvdMask c := by
    rw [resetBoth, reset2_eq, reset2_eq, install_pair_rsvd, install_pair_rsvd, setupWord_rsvd]
  rw [resetBoth, setup_end_word c hc, hrsvd, resetBoth, setup_end_word c hc]

/-! ## The counters the operations leave -/

/-- A store of a word whose every nibble is `NIB_RESET` zeroes every counter (R95). -/
theorem resetCounters_all {c : Cfg} {w : Word} (h : ∀ k, nib w k = c.nibReset) (pm : Vector Word 4) :
    resetCounters c w pm = #v[0, 0, 0, 0] := by
  simp [resetCounters, h]

/-- A store that replaces a monitor's nibbles: the others carry over, and zero their counters again if they are `NIB_RESET` (R95). -/
theorem resetCounters_install_get (c : Cfg) (w : Word) (n : Nibble) (m : Monitor) (pm : Vector Word 4) (k : Slot) :
    (resetCounters c (install w (monMask m) (pairWord n m)) pm)[k] =
      if (if pairOf k = m then n else nib w k) = c.nibReset then 0 else pm[k] := by
  rw [resetCounters_get, nib_install_pair]

/-- START's two stores, RESET2's word and then one without `NIB_RESET` in the monitor's nibbles: the monitor's counters are zeroed and stay so
(R116). -/
theorem resetCounters_twice_get {c : Cfg} {n : Nibble} (hn : n ≠ c.nibReset) (w : Word) (m : Monitor) (pm : Vector Word 4) (k : Slot) :
    (resetCounters c (install w (monMask m) (pairWord n m)) (resetCounters c (install w (monMask m) (reset2 c m)) pm))[k] =
      if pairOf k = m ∨ nib w k = c.nibReset then 0 else pm[k] := by
  rw [reset2_eq, resetCounters_install_get, resetCounters_install_get]
  by_cases hk : pairOf k = m
  · simp [hk, hn]
  · by_cases hw : nib w k = c.nibReset
    · simp [hk, hw]
    · simp [hk, hw]

/-! ## The accesses in order -/

section

variable {s : State} (hp : s.pc = .idle) (hs : s.schedule = [])

include hp hs

/-- SETUP makes three words, each from the one before; its last write zeroes every counter (R115). -/
theorem execSetup_alone {w1 w2 w3 : Word} (h1 : setupWord s.cfg s.pmc = w1) (h2 : install w1 (monMask 0) (reset2 s.cfg 0) = w2)
    (h3 : install w2 (monMask 1) (reset2 s.cfg 1) = w3) :
    execSetup s = .next { s with
      pmc := w3, pm := #v[0, 0, 0, 0], xW := w2, setupDone := true
      trace := .wrPmc w3 :: .rdPmc w2 :: .wrPmc w2 :: .rdPmc w1 :: .wrPmc w1 :: .rdPmc s.pmc :: s.trace } := by
  subst h1 h2 h3
  have hpm := resetCounters_all (nib_resetBoth s.cfg (setupWord s.cfg s.pmc))
  rw [execSetup_accepted hp hs, runOp,
    finish_seqStep 5 Phase.noConfusion (seqStep_setupS0 rfl), finish_seqStep 4 Phase.noConfusion (seqStep_setupS1 rfl),
    finish_seqStep 3 Phase.noConfusion (seqStep_setupS2 rfl), finish_seqStep 2 Phase.noConfusion (seqStep_setupS3 rfl),
    finish_seqStep 1 Phase.noConfusion (seqStep_setupS4 rfl), finish_seqStep 0 Phase.noConfusion (seqStep_setupS5 rfl),
    ← hpm, goto, ← hp, ← hs]
  rfl

/-- START makes both its words from the one read (R116). -/
theorem execStart_alone (m : Monitor) {ev : Word} {e : Event} {n : Nibble} (he : eventOf s.cfg ev = some e)
    (hn : runOf s.cfg e = some n) {w1 w2 : Word} (h1 : install s.pmc (monMask m) (reset2 s.cfg m) = w1)
    (h2 : install s.pmc (monMask m) (pairWord n m) = w2) :
    execStart (BitVec.ofNat 32 m.val) ev s = .next { s with
      pmc := w2, pm := resetCounters s.cfg w2 (resetCounters s.cfg w1 s.pm), xM := BitVec.ofNat 32 m.val, xE := ev, xW := s.pmc
      status := stOk, trace := .wrPmc w2 :: .wrPmc w1 :: .rdPmc s.pmc :: s.trace } := by
  subst h1 h2
  have hm := monitorOf_ofNat m
  have hv : start2 s.cfg m e = some (pairWord n m) := by rw [start2_eq, hn]; rfl
  rw [execStart_accepted m hp he hs, runOp, finish_seqStep 5 Phase.noConfusion (seqStep_startT0 rfl),
    finish_seqStep 4 Phase.noConfusion (seqStep_startT1 rfl hm),
    finish_seqStep 3 Phase.noConfusion (seqStep_startT2 (e := e) (v := pairWord n m) rfl hm ?_ ?_),
    finish_idle 3 rfl, succeed, ← hp, ← hs]
  · rfl
  · exact he
  · exact hv

theorem execStop_alone (m : Monitor) {w : Word} (hw : install s.pmc (monMask m) (stop2 s.cfg m) = w) :
    execStop (BitVec.ofNat 32 m.val) s = .next { s with
      pmc := w, pm := resetCounters s.cfg w s.pm, xM := BitVec.ofNat 32 m.val, xW := s.pmc, status := stOk
      trace := .wrPmc w :: .rdPmc s.pmc :: s.trace } := by
  subst hw
  rw [execStop_accepted m hp hs, runOp, finish_seqStep 5 Phase.noConfusion (seqStep_stopP0 rfl),
    finish_seqStep 4 Phase.noConfusion (seqStep_stopP1 rfl (monitorOf_ofNat m)), finish_idle 4 rfl, succeed, ← hp, ← hs]
  rfl

end

/-! ## The end states -/

/-- Settles O24: STOP's one write puts `NIB_STOP`, which is not `NIB_RESET`, in the monitor's nibbles. -/
theorem stopEndState : Obligations.StopEndState := by
  intro s m hc hp hs
  obtain ⟨-, -, hne, -⟩ := hc
  refine ⟨_, fun k => ?_, execStop_alone hp hs m rfl⟩
  refine (resetCounters_install_get _ _ _ _ _ k).trans ?_
  by_cases hkm : pairOf k = m
  · simp [hkm, hne]
  · simp [hkm]

/-- Settles O23: the first write zeroes the monitor's counters, and the second leaves them, since no `RUN` value is `NIB_RESET`. -/
theorem startEndState : Obligations.StartEndState := by
  intro s m ev hc hp hs hlo hhi
  obtain ⟨he, n, hn, hrun⟩ := eventOf_valid s.cfg hc ev hlo hhi
  obtain ⟨-, hne⟩ := runOf_ne s.cfg hc _ n hn
  have hpm := fun k => resetCounters_twice_get (n := n) hne s.pmc m s.pm k
  refine ⟨n, _, hrun, (hpm _).trans (by simp), (hpm _).trans (by simp), fun k hk => (hpm k).trans (by simp [hk]),
    execStart_alone hp hs m he hn rfl rfl⟩

/-- Settles O22: the three writes, and the last word as R118 names it. -/
theorem setupEndState : Obligations.SetupEndState := by
  intro s hc hp hs
  have hword := setup_end_word s.cfg hc s.pmc
  rw [setupWord_eq] at hword
  exact ⟨hword, execSetup_alone hp hs (setupWord_eq s.cfg s.pmc) rfl rfl⟩

/-! ## Operations repeated (R119)

The second run starts from the first one's end state, at IDLE with nothing scheduled, and makes the same last word from it. -/

section

variable {s : State} (hp : s.pc = .idle) (hs : s.schedule = [])

include hp hs

theorem execSetup_twice (hc : s.cfg.WF) :
    ∃ t u, execSetup s = .next t ∧ execSetup t = .next u ∧ u.pmc = t.pmc ∧ u.pm = t.pm := by
  refine ⟨_, _, execSetup_alone hp hs rfl rfl rfl, execSetup_alone ?_ ?_ rfl rfl rfl, ?_, rfl⟩
  · exact hp
  · exact hs
  · exact resetBoth_setupWord_idem hc s.pmc

theorem execStop_twice (m : Monitor) :
    ∃ t u, execStop (BitVec.ofNat 32 m.val) s = .next t ∧ execStop (BitVec.ofNat 32 m.val) t = .next u ∧ u.pmc = t.pmc ∧ u.pm = t.pm := by
  have hword := install_install s.pmc (monMask m) (stop2 s.cfg m)
  refine ⟨_, _, execStop_alone hp hs m rfl, execStop_alone ?_ ?_ m rfl, hword, ?_⟩
  · exact hp
  · exact hs
  · exact (congrArg (resetCounters s.cfg · _) hword).trans (resetCounters_idem s.cfg _ s.pm)

theorem execStart_twice (m : Monitor) {ev : Word} {e : Event} {n : Nibble} (he : eventOf s.cfg ev = some e) (hn : runOf s.cfg e = some n) :
    ∃ t u, execStart (BitVec.ofNat 32 m.val) ev s = .next t ∧ execStart (BitVec.ofNat 32 m.val) ev t = .next u ∧ u.pmc = t.pmc := by
  refine ⟨_, _, execStart_alone hp hs m he hn rfl rfl, execStart_alone ?_ ?_ m (e := e) (n := n) ?_ ?_ rfl rfl, ?_⟩
  · exact hp
  · exact hs
  · exact he
  · exact hn
  · exact install_install s.pmc (monMask m) (pairWord n m)

end

/-- Settles O31, operation by operation. -/
theorem repeatedOperations : Obligations.RepeatedOperations := by
  intro s m ev hc hp hs hlo hhi
  obtain ⟨he, n, hn, -⟩ := eventOf_valid s.cfg hc ev hlo hhi
  exact ⟨execSetup_twice hp hs hc, execStop_twice hp hs m, execStart_twice hp hs m he hn⟩

end Sys2Proof.Machine
end

section
/-! PROOFS. What the words the operations leave mean for the pairs (O30; R96, R102, R118). -/

namespace Sys2Proof.Machine

/-- In a quiet word each pair is quiet and chained. -/
theorem quietWord_pair {c : Cfg} {w : Word} (h : quietWord c w = true) (p : Monitor) : quiet c w p = true ∧ chained c w p = true := by
  simp only [quietWord, Bool.and_eq_true] at h
  obtain ⟨⟨hflags, h0⟩, h1⟩ := h
  refine ⟨?_, chained_of_flagsSet c w p hflags⟩
  obtain rfl | rfl := monitor_cases p
  · exact h0
  · exact h1

section

variable {c : Cfg} (hc : c.WF) (w : Word) (m : Monitor)

include hc

/-- SETUP's word leaves both pairs quiet and chained (R118, first item). -/
theorem setup_end_word_pair (p : Monitor) :
    quiet c ((w &&& rsvdMask c) ||| flagsAll c ||| reset2 c 0 ||| reset2 c 1) p = true ∧
      chained c ((w &&& rsvdMask c) ||| flagsAll c ||| reset2 c 0 ||| reset2 c 1) p = true := by
  rw [← setup_end_word c hc]
  exact quietWord_pair (quietWord_install_reset2 hc 1 (quietWord_install_reset2 hc 0 (quietWord_setupWord c hc w))) p

/-- STOP's word leaves its pair quiet (R118, third item). -/
theorem quiet_install_stop2 : quiet c (install w (monMask m) (stop2 c m)) m = true :=
  quiet_install_own c w c.nibStop m (nibStop_idle hc)

end

/-- RESETM's word leaves its pair quiet (R118, fourth item). -/
theorem quiet_install_reset2 (c : Cfg) (w : Word) (m : Monitor) : quiet c (install w (monMask m) (reset2 c m)) m = true :=
  quiet_install_own c w c.nibReset m (nibReset_idle c)

/-- Settles O30: all four words are clear-then-OR on a monitor's nibbles, with a running pattern or an idle command, and leave the other pair's
nibbles and chain flag. -/
theorem endWordsMeaning : Obligations.EndWordsMeaning := by
  intro c w m p e n hc hn
  obtain ⟨hquiet, hchained⟩ := setup_end_word_pair hc w p
  refine ⟨hquiet, hchained, counting_install_own c hc w n m e hn, quiet_install_stop2 hc w m, quiet_install_reset2 c w m, fun hp => ?_⟩
  have hother : ∀ n', quiet c (install w (monMask m) (pairWord n' m)) p = quiet c w p ∧
      undefinedPair c (install w (monMask m) (pairWord n' m)) p = undefinedPair c w p ∧
      ∀ f, counting c (install w (monMask m) (pairWord n' m)) p f = counting c w p f := by
    intro n'
    obtain ⟨hcounting, hundefined, hquiet⟩ := status_install_other c hc w n' m p hp
    exact ⟨hquiet, hundefined, hcounting⟩
  exact List.forall_mem_cons.2 ⟨hother n, List.forall_mem_cons.2 ⟨hother c.nibStop, List.forall_mem_singleton.2 (hother c.nibReset)⟩⟩

end Sys2Proof.Machine
end

section
/-! PROOFS. SETUP, START and STOP under EXCL (O37 to O39; R49, R118): what an operation in progress will leave is a function of the state it is in,
which no step of SEQ, CNT or the codec changes; so under EXCL it is settled at the first access. -/

namespace Sys2Proof.Machine

/-! ## What an operation in progress leaves -/

def Phase.isSetup : Phase → Bool
  | .setupS0 | .setupS1 | .setupS2 | .setupS3 | .setupS4 | .setupS5 => true
  | .idle | .startT0 | .startT1 | .startT2 | .stopP0 | .stopP1 | .readR0 | .readR1 => false

/-- The phases of the operations that answer in STATUS (R32). -/
def Phase.answersStatus : Phase → Bool
  | .startT0 | .startT1 | .startT2 | .stopP0 | .stopP1 => true
  | .idle | .setupS0 | .setupS1 | .setupS2 | .setupS3 | .setupS4 | .setupS5 | .readR0 | .readR1 => false

def Phase.isRead : Phase → Bool
  | .readR0 | .readR1 => true
  | .idle | .setupS0 | .setupS1 | .setupS2 | .setupS3 | .setupS4 | .setupS5 | .startT0 | .startT1 | .startT2 | .stopP0 | .stopP1 => false

/-- START's last word, made from w, with its arguments in the latches (R116). -/
def startWord (c : Cfg) (xM xE w : Word) : Word :=
  match monitorOf xM, eventOf c xE with
  | some m, some e => install w (monMask m) ((start2 c m e).getD 0)
  | _, _ => w

/-- STOP's word, made from w (R117). -/
def stopWord (c : Cfg) (xM w : Word) : Word :=
  match monitorOf xM with
  | some m => install w (monMask m) (stop2 c m)
  | none => w

/-- PMC after the writes still to come, when nobody else writes it: made from PMC where a read comes first, from x[W] where the write does. -/
def endWord (s : State) : Word :=
  match s.pc with
  | .idle | .readR0 | .readR1 => s.pmc
  | .setupS0 => resetBoth s.cfg (setupWord s.cfg s.pmc)
  | .setupS1 => resetBoth s.cfg (setupWord s.cfg s.xW)
  | .setupS2 => resetBoth s.cfg s.pmc
  | .setupS3 => resetBoth s.cfg s.xW
  | .setupS4 => install s.pmc (monMask 1) (reset2 s.cfg 1)
  | .setupS5 => install s.xW (monMask 1) (reset2 s.cfg 1)
  | .startT0 => startWord s.cfg s.xM s.xE s.pmc
  | .startT1 | .startT2 => startWord s.cfg s.xM s.xE s.xW
  | .stopP0 => stopWord s.cfg s.xM s.pmc
  | .stopP1 => stopWord s.cfg s.xM s.xW

/-- The registers an operation leaves, the counters apart. -/
structure Ending where
  pmc : Word
  status : Word
  value : Count
  setupDone : Bool

/-- What the operation in progress leaves, when nobody else writes PMC: in IDLE the registers as they are. READ's result is not foreseen. -/
def ending (s : State) : Ending where
  pmc := endWord s
  status := if s.pc.answersStatus then stOk else s.status
  value := s.value
  setupDone := s.pc.isSetup || s.setupDone

theorem startWord_eq {c : Cfg} {xM xE v : Word} {m : Monitor} {e : Event} (hm : monitorOf xM = some m) (he : eventOf c xE = some e)
    (hv : start2 c m e = some v) (w : Word) : startWord c xM xE w = install w (monMask m) v := by
  rw [startWord, hm, he]
  simp only [hv, Option.getD_some]

theorem stopWord_eq (c : Cfg) {xM : Word} {m : Monitor} (hm : monitorOf xM = some m) (w : Word) :
    stopWord c xM w = install w (monMask m) (stop2 c m) := by
  rw [stopWord, hm]

/-- At IDLE the operation has left it. -/
theorem ending_idle {s : State} (hp : s.pc = .idle) : ending s = ⟨s.pmc, s.status, s.value, s.setupDone⟩ := by
  rw [ending, endWord, hp]
  rfl

/-- A SEQ step does a part of what was to come, and leaves the rest. READ alone has its result from the counters. -/
theorem seqStep_ending {s t : State} (hr : s.pc.isRead = false) (h : seqStep s = .next t) :
    t.pc.isRead = false ∧ ending t = ending s := by
  unfold ending endWord
  cases seqStep_effect h with
  | idle hp => exact ⟨hr, rfl⟩
  | setupS0 hp | setupS1 hp | setupS2 hp | setupS3 hp | setupS4 hp | setupS5 hp => rw [hp]; exact ⟨rfl, rfl⟩
  | startT0 hp | startT1 hp m hm | stopP0 hp => rw [hp]; exact ⟨rfl, rfl⟩
  | startT2 hp m hm e he v hv => rw [hp]; simp only [startWord_eq hm he hv]; exact ⟨rfl, rfl⟩
  | stopP1 hp m hm => rw [hp]; simp only [stopWord_eq s.cfg hm]; exact ⟨rfl, rfl⟩
  | readR0 hp m hm => rw [hp] at hr; cases hr
  | readR1 hp m hm => rw [hp] at hr; cases hr

/-! ## The counters an operation in progress zeroes -/

/-- A PMC write keeps the count of a pair in whose nibbles it does not store `NIB_RESET` (R95). -/
theorem count_storePmc {v : Word} {s : State} {p : Monitor} (h : ∀ k, pairOf k = p → nib v k ≠ s.cfg.nibReset) :
    count (storePmc v s) p = count s p :=
  count_congr _ _ p fun k hk => (resetCounters_get _ _ _ k).trans (if_neg (h k hk))

theorem count_eq_zero_iff {s : State} {p : Monitor} : count s p = 0 ↔ ∀ k, pairOf k = p → s.pm[k] = 0 := by
  refine ⟨fun h k hk => ?_, fun h => ?_⟩
  · obtain hk' | hk' := slot_cases k
    · rw [hk', hk, low_count, h]; rfl
    · rw [hk', hk, high_count, h]; rfl
  · rw [count, h _ (pairOf_highSlot p), h _ (pairOf_lowSlot p)]
    rfl

/-- One that stores it in both zeroes the count. -/
theorem count_storePmc_reset {v : Word} {s : State} {p : Monitor} (h : ∀ k, pairOf k = p → nib v k = s.cfg.nibReset) :
    count (storePmc v s) p = 0 :=
  count_eq_zero_iff.2 fun k hk => (resetCounters_get _ _ _ k).trans (if_pos (h k hk))

/-- The operation in progress leaves the count of pair p at 0: SETUP, whose last word has `NIB_RESET` there, and START of p, which has zeroed it
when T2 comes and keeps the pair quiet until then (R115, R116). -/
def Zeroes (p : Monitor) (s : State) : Prop :=
  match s.pc with
  | .idle => count s p = 0
  | .setupS0 | .setupS1 | .setupS2 | .setupS3 | .setupS4 | .setupS5 => ∀ k, pairOf k = p → nib (endWord s) k = s.cfg.nibReset
  | .startT0 | .startT1 => monitorOf s.xM = some p
  | .startT2 => monitorOf s.xM = some p ∧ quiet s.cfg s.pmc p = true ∧ count s p = 0
  | .stopP0 | .stopP1 | .readR0 | .readR1 => False

theorem seqStep_zeroes {p : Monitor} {s t : State} (hc : s.cfg.WF) (hi : s.pc ≠ .idle) (hz : Zeroes p s) (h : seqStep s = .next t) :
    Zeroes p t := by
  unfold Zeroes at hz
  cases seqStep_effect h with
  | idle hp => exact absurd hp hi
  | setupS0 hp | setupS1 hp | setupS2 hp | setupS3 hp | setupS4 hp =>
    simp only [hp, endWord] at hz
    exact hz
  | setupS5 hp =>
    simp only [hp, endWord] at hz
    exact count_storePmc_reset hz
  | startT0 hp =>
    rw [hp] at hz
    exact hz
  | startT1 hp m hm =>
    rw [hp] at hz
    cases hm.symm.trans hz
    refine ⟨hz, quiet_install_reset2 s.cfg s.xW p, count_storePmc_reset fun k hk => ?_⟩
    rw [reset2_eq, nib_install_pair, if_pos hk]
  | startT2 hp m hm e he v hv =>
    rw [hp] at hz
    obtain ⟨hm', -, hzero⟩ := hz
    cases hm.symm.trans hm'
    rw [start2_eq] at hv
    obtain ⟨n, hn, rfl⟩ := Option.map_eq_some_iff.1 hv
    obtain ⟨-, hne⟩ := runOf_ne s.cfg hc e n hn
    refine (count_storePmc fun k hk => ?_).trans hzero
    rw [nib_install_pair, if_pos hk]
    exact hne
  | stopP0 hp | stopP1 hp m hm | readR0 hp m hm | readR1 hp m hm => rw [hp] at hz; cases hz

theorem cntStep_zeroes {p : Monitor} {k : Slot} {s t : State} (hi : s.pc ≠ .idle) (hz : Zeroes p s) (h : cntStep k s = .next t) :
    Zeroes p t := by
  obtain ⟨⟨pm, n, rfl⟩, -, hquiet⟩ := cntStep_frame h
  cases hp : s.pc with
  | idle => exact absurd hp hi
  | startT2 =>
    simp only [Zeroes, hp] at hz ⊢
    obtain ⟨hm, hq, hzero⟩ := hz
    exact ⟨hm, hq, (count_congr s _ p fun j hj => hquiet j (hj ▸ hq)).trans hzero⟩
  | setupS0 | setupS1 | setupS2 | setupS3 | setupS4 | setupS5 | startT0 | startT1 => simpa only [Zeroes, endWord, hp] using hz
  | stopP0 | stopP1 | readR0 | readR1 => simp only [Zeroes, hp] at hz

/-! ## Under EXCL -/

/-- What the steps of SEQ, CNT and the codec keep from the first access of the operation in `a` to its end. -/
structure UnderExcl (a s : State) : Prop where
  inv : Inv s
  notRead : s.pc.isRead = false
  ending : ending s = Machine.ending a
  zeroes : ∀ p, Zeroes p a → Zeroes p s

namespace UnderExcl

variable {a s t : State}

theorem refl (hs : Inv s) (hr : s.pc.isRead = false) : UnderExcl s s := ⟨hs, hr, rfl, fun _ hz => hz⟩

theorem seqStep (hs : UnderExcl a s) (hi : s.pc ≠ .idle) (h : Machine.seqStep s = .next t) : UnderExcl a t := by
  obtain ⟨hinv, hread, hend, hzeroes⟩ := hs
  obtain ⟨hread', hend'⟩ := seqStep_ending hread h
  exact ⟨seqStep_keeps_inv hinv h, hread', hend'.trans hend, fun p hz => seqStep_zeroes hinv.1 hi (hzeroes p hz) h⟩

theorem cntStep {k : Slot} (hs : UnderExcl a s) (hi : s.pc ≠ .idle) (h : Machine.cntStep k s = .next t) : UnderExcl a t := by
  have hzeroes := fun p hz => cntStep_zeroes hi (hs.zeroes p hz) h
  obtain ⟨⟨pm, n, rfl⟩, -⟩ := cntStep_frame h
  exact ⟨hs.inv, hs.notRead, hs.ending, hzeroes⟩

/-- An operation other than READ, from its first access on, leaves what its ending says. -/
theorem runOp {l : List Move} (hs : UnderExcl a s) (hx : noExt s.pc.left l = true) (hu : Unbroken s.cfg s.pc.left l = true) :
    ∃ t, Machine.runOp l s = .next t ∧ UnderExcl a t ∧ t.pc = .idle ∧ t.schedule = afterAccesses s.pc.left l :=
  runOp_exclusive (Q := UnderExcl a) (fun _ _ hQ => ⟨hQ.inv, hQ.notRead, hQ.ending, hQ.zeroes⟩)
    (fun u hQ hi => by
      obtain ⟨t, ht⟩ := seqStep_next_of_inv hQ.inv
      exact ⟨t, ht, hQ.seqStep hi ht⟩)
    (fun _ _ _ hQ => hQ.cntStep) (fun _ _ hQ => ⟨hQ.inv, hQ.notRead, hQ.ending, hQ.zeroes⟩) l s hs hs.inv.1 hx hu

end UnderExcl

/-- Under EXCL an operation other than READ leaves the ending of its first phase, with the PMC it finds at its first access (R49, R118). -/
theorem runOp_ending {s : State} {l : List Move} (hs : Inv s) (hi : s.pc ≠ .idle) (hr : s.pc.isRead = false)
    (hx : Exclusive s.pc.left l = true) (hu : Unbroken s.cfg s.pc.left l = true) :
    ∃ pm t, runOp l s = .next t ∧ t.pc = .idle ∧ t.schedule = afterAccesses s.pc.left l ∧
      ending { s with pmc := pmcAtFirst s.pmc l } = ⟨t.pmc, t.status, t.value, t.setupDone⟩ ∧
      ∀ p, Zeroes p { s with pmc := pmcAtFirst s.pmc l, pm := pm } → count t p = 0 := by
  obtain ⟨pm, n, v, r, hrun, hx', hu', hafter⟩ := runOp_first l s hs.1 hi hx hu
  have hfirst : UnderExcl _ { s with pmc := pmcAtFirst s.pmc l, pm := pm, drawn := n, codecOut := v } := .refl hs hr
  obtain ⟨t, ht, ⟨-, -, hend, hzeroes⟩, hidle, hsched⟩ := hfirst.runOp hx' hu'
  refine ⟨pm, t, hrun.trans ht, hidle, hsched.trans hafter, hend.symm.trans (ending_idle hidle), fun p hz => ?_⟩
  have hzero := hzeroes p hz
  rw [Zeroes, hidle] at hzero
  exact hzero

/-! ## A pair that counts on -/

/-- No nibble of a counting pair is `NIB_RESET`. -/
theorem counting_nib_ne_reset {c : Cfg} {w : Word} {p : Monitor} {e : Event} (h : counting c w p e = true) {k : Slot} (hk : pairOf k = p) :
    nib w k ≠ c.nibReset := by
  subst hk
  intro hn
  have hrun := slotCmd_of_counting h
  rw [slotCmd, hn, nibCmd_reset] at hrun
  cases hrun

/-- Pair p counts e while START of the other monitor or STOP is in progress, both in PMC and in the word the operation will write from. -/
def CountsOn (p : Monitor) (e : Event) (s : State) : Prop :=
  match s.pc with
  | .idle => True
  | .startT0 => counting s.cfg s.pmc p e = true ∧ monitorOf s.xM ≠ some p
  | .startT1 | .startT2 => counting s.cfg s.pmc p e = true ∧ counting s.cfg s.xW p e = true ∧ monitorOf s.xM ≠ some p
  | .stopP0 => counting s.cfg s.pmc p e = true
  | .stopP1 => counting s.cfg s.pmc p e = true ∧ counting s.cfg s.xW p e = true
  | .setupS0 | .setupS1 | .setupS2 | .setupS3 | .setupS4 | .setupS5 | .readR0 | .readR1 => False

theorem CountsOn.counting {p : Monitor} {e : Event} {s : State} (h : CountsOn p e s) (hi : s.pc ≠ .idle) :
    counting s.cfg s.pmc p e = true := by
  unfold CountsOn at h
  cases hp : s.pc with
  | idle => exact absurd hp hi
  | startT0 | startT1 | startT2 | stopP1 => rw [hp] at h; exact h.1
  | stopP0 => rw [hp] at h; exact h
  | setupS0 | setupS1 | setupS2 | setupS3 | setupS4 | setupS5 | readR0 | readR1 => rw [hp] at h; cases h

/-- A store that replaces another monitor's nibbles, made from a word in which p counts. -/
theorem count_store_other {s : State} {w : Word} {n : Nibble} {m p : Monitor} {e : Event} (hp : p ≠ m) (h : counting s.cfg w p e = true) :
    count (storePmc (install w (monMask m) (pairWord n m)) s) p = count s p := by
  refine count_storePmc fun k hk => ?_
  rw [nib_install_pair, if_neg (hk ▸ hp)]
  exact counting_nib_ne_reset h hk

/-- STOP's store leaves its monitor's count (R92, R117). -/
theorem count_store_stop2 {s : State} (hc : s.cfg.WF) (w : Word) (m : Monitor) :
    count (storePmc (install w (monMask m) (stop2 s.cfg m)) s) m = count s m := by
  obtain ⟨-, -, hne, -⟩ := hc
  refine count_storePmc fun k hk => ?_
  rw [stop2_eq, nib_install_pair, if_pos hk]
  exact hne

theorem seqStep_countsOn {p : Monitor} {e : Event} {s t : State} (hc : s.cfg.WF) (hi : s.pc ≠ .idle) (hk : CountsOn p e s)
    (h : seqStep s = .next t) : CountsOn p e t ∧ count t p = count s p := by
  unfold CountsOn at hk
  cases seqStep_effect h with
  | idle hp => exact absurd hp hi
  | startT0 hp =>
    rw [hp] at hk
    obtain ⟨hcount, hother⟩ := hk
    exact ⟨⟨hcount, hcount, hother⟩, rfl⟩
  | startT1 hp m hm =>
    rw [hp] at hk
    obtain ⟨-, hxW, hother⟩ := hk
    have hpm : p ≠ m := fun h => hother (h ▸ hm)
    obtain ⟨hcounting, -⟩ := status_install_other s.cfg hc s.xW s.cfg.nibReset m p hpm
    exact ⟨⟨(hcounting e).trans hxW, hxW, hother⟩, count_store_other hpm hxW⟩
  | startT2 hp m hm e' he v hv =>
    rw [hp] at hk
    obtain ⟨-, hxW, hother⟩ := hk
    have hpm : p ≠ m := fun h => hother (h ▸ hm)
    rw [start2_eq] at hv
    obtain ⟨n, -, rfl⟩ := Option.map_eq_some_iff.1 hv
    exact ⟨trivial, count_store_other hpm hxW⟩
  | stopP0 hp =>
    rw [hp] at hk
    exact ⟨⟨hk, hk⟩, rfl⟩
  | stopP1 hp m hm =>
    rw [hp] at hk
    obtain ⟨-, hxW⟩ := hk
    refine ⟨trivial, ?_⟩
    by_cases hpm : p = m
    · subst hpm
      exact count_store_stop2 hc s.xW p
    · exact count_store_other hpm hxW
  | setupS0 hp | setupS1 hp | setupS2 hp | setupS3 hp | setupS4 hp | setupS5 hp | readR0 hp m hm | readR1 hp m hm =>
    rw [hp] at hk; cases hk

/-- A pair that counts on has one count for each of CNT's turns up to the operation's last access. -/
theorem runOp_countsOn {p : Monitor} {e : Event} {l : List Move} {s t : State} (hs : Inv s) (hk : CountsOn p e s)
    (hx : noExt s.pc.left l = true) (hu : Unbroken s.cfg s.pc.left l = true) (h : runOp l s = .next t) :
    count t p = count s p + BitVec.ofNat 64 (turns p s.pc.left l) :=
  runOp_turns (Q := fun u => Inv u ∧ CountsOn p e u) p (fun _ _ hQ => hQ)
    (fun u ⟨hu, hk⟩ hi => by
      obtain ⟨v, hv⟩ := seqStep_next_of_inv hu
      obtain ⟨hk', hcount⟩ := seqStep_countsOn hu.1 hi hk hv
      exact ⟨v, hv, ⟨seqStep_keeps_inv hu hv, hk'⟩, hcount⟩)
    (fun k u v hQ _ hv => by
      obtain ⟨⟨pm, n, rfl⟩, -⟩ := cntStep_frame hv
      exact hQ)
    (fun _ _ hQ => hQ) (fun u ⟨_, hk⟩ hi => ⟨e, hk.counting hi⟩) l s t ⟨hs, hk⟩ hs.1 hx hu h

/-! ## SETUP and START -/

/-- Settles O37: SETUP's ending, with `NIB_RESET` in every nibble of its word. -/
theorem setupUnderExcl : Obligations.SetupUnderExcl := by
  intro s hc hp hx hu
  obtain ⟨pm, t, hrun, hidle, hsched, hend, hzero⟩ := runOp_ending (s := goto .setupS0 s) (l := s.schedule) ⟨hc, rfl⟩
    Phase.noConfusion rfl hx hu
  obtain ⟨hpmc, hstatus, hvalue, hdone⟩ := Ending.mk.inj hend
  have hword := hpmc.symm.trans (setup_end_word s.cfg hc _)
  have hcount : ∀ p, count t p = 0 := fun p => hzero p fun k _ => nib_resetBoth _ _ k
  refine ⟨t, (execSetup_accepted hp rfl).trans hrun, hidle, hsched, hdone.symm, hword, fun k => count_eq_zero_iff.1 (hcount (pairOf k)) k rfl,
    fun p => ?_, hstatus.symm, hvalue.symm⟩
  rw [hword]
  exact setup_end_word_pair hc _ p

/-- Settles O38: START's ending; its monitor is zeroed and, where chained, runs; the other's counting goes on through both writes. -/
theorem startUnderExcl : Obligations.StartUnderExcl := by
  intro s m ev hc hp hx hu hlo hhi
  obtain ⟨he, n, hn, hn'⟩ := eventOf_valid s.cfg hc ev hlo hhi
  have hv : start2 s.cfg m (ev.setWidth 4) = some (pairWord n m) := by rw [start2_eq, hn]; rfl
  have hm := monitorOf_ofNat m
  have hinv : Inv (goto .startT0 { s with xM := BitVec.ofNat 32 m.val, xE := ev }) := ⟨hc, by simp [latchesHold, he]⟩
  obtain ⟨pm, t, hrun, hidle, hsched, hend, hzero⟩ := runOp_ending (l := s.schedule) hinv Phase.noConfusion rfl hx hu
  obtain ⟨hpmc, hstatus, hvalue, -⟩ := Ending.mk.inj hend
  have hword := hpmc.symm.trans (startWord_eq hm he hv _)
  refine ⟨t, n, (execStart_accepted m hp he rfl).trans hrun, hn', hidle, hsched, hstatus.symm, hzero m hm, hword, fun hch => ?_,
    hvalue.symm, fun p e hpm hnoExt hcount => ?_⟩
  · rw [hword]
    exact (counting_install_own s.cfg hc _ n m _ hn).trans hch
  · have hother : monitorOf (BitVec.ofNat 32 m.val) ≠ some p := fun h => hpm (Option.some.inj (h.symm.trans hm))
    exact runOp_countsOn (p := p) (e := e) hinv ⟨hcount, hother⟩ hnoExt hu hrun

/-! ## STOP -/

/-- P1 leaves its monitor's count (R117). -/
theorem seqStep_stopP1_count {m : Monitor} {s t : State} (hc : s.cfg.WF) (hp : s.pc = .stopP1) (hm : monitorOf s.xM = some m)
    (h : seqStep s = .next t) : count t m = count s m := by
  rw [seqStep_stopP1 hp hm] at h
  cases h
  exact count_store_stop2 hc s.xW m

/-- STOP is in progress with this monitor, which is quiet, and its count is c. -/
structure StopsQuiet (m : Monitor) (c : Count) (s : State) : Prop where
  inv : Inv s
  pc : s.pc = .idle ∨ s.pc = .stopP0 ∨ s.pc = .stopP1
  xM : monitorOf s.xM = some m
  quiet : s.pc ≠ .idle → quiet s.cfg s.pmc m = true
  count : count s m = c

namespace StopsQuiet

variable {m : Monitor} {c : Count} {s t : State}

theorem seqStep (hs : StopsQuiet m c s) (hi : s.pc ≠ .idle) (h : Machine.seqStep s = .next t) : StopsQuiet m c t := by
  obtain ⟨hinv, hpc, hm, hquiet, hcount⟩ := hs
  have hinv' := seqStep_keeps_inv hinv h
  obtain hp | hp | hp := hpc
  · exact absurd hp hi
  · rw [seqStep_stopP0 hp] at h
    cases h
    exact ⟨hinv', .inr (.inr rfl), hm, fun _ => hquiet hi, hcount⟩
  · have hcount' := seqStep_stopP1_count hinv.1 hp hm h
    rw [seqStep_stopP1 hp hm] at h
    cases h
    exact ⟨hinv', .inl rfl, hm, fun hne => absurd rfl hne, hcount'.trans hcount⟩

theorem cntStep {k : Slot} (hs : StopsQuiet m c s) (hi : s.pc ≠ .idle) (h : Machine.cntStep k s = .next t) : StopsQuiet m c t := by
  obtain ⟨hinv, hpc, hm, hquiet, hcount⟩ := hs
  obtain ⟨⟨pm, n, rfl⟩, -, hkeep⟩ := cntStep_frame h
  exact ⟨hinv, hpc, hm, hquiet, (count_congr s _ m fun j hj => hkeep j (hj ▸ hquiet hi)).trans hcount⟩

theorem runOp {l : List Move} (hs : StopsQuiet m c s) (hx : noExt s.pc.left l = true) (hu : Unbroken s.cfg s.pc.left l = true)
    (h : Machine.runOp l s = .next t) : Machine.count t m = c := by
  obtain ⟨t', ht, hQ, -⟩ := runOp_exclusive (Q := StopsQuiet m c)
    (fun _ _ ⟨hinv, hpc, hm, hquiet, hcount⟩ => ⟨hinv, hpc, hm, hquiet, hcount⟩)
    (fun u hQ hi => by
      obtain ⟨v, hv⟩ := seqStep_next_of_inv hQ.inv
      exact ⟨v, hv, hQ.seqStep hi hv⟩)
    (fun _ _ _ hQ => hQ.cntStep) (fun _ _ ⟨hinv, hpc, hm, hquiet, hcount⟩ => ⟨hinv, hpc, hm, hquiet, hcount⟩) l s hs hs.inv.1 hx hu
  cases h.symm.trans ht
  exact hQ.count

end StopsQuiet

/-- STOP under EXCL: its ending, and what becomes of the counts where EXT stays out from the start (R117, R118). -/
theorem execStop_underExcl {s : State} (m : Monitor) (hc : s.cfg.WF) (hp : s.pc = .idle) (hx : Exclusive 2 s.schedule = true)
    (hu : Unbroken s.cfg 2 s.schedule = true) :
    ∃ t, execStop (BitVec.ofNat 32 m.val) s = .next t ∧ t.pc = .idle ∧ t.schedule = afterAccesses 2 s.schedule ∧ t.status = 0 ∧
      t.pmc = install (pmcAtFirst s.pmc s.schedule) (monMask m) (stop2 s.cfg m) ∧ t.value = s.value ∧
      (noExt 2 s.schedule = true → ∀ p e, counting s.cfg s.pmc p e = true →
        count t p = count s p + BitVec.ofNat 64 (turns p 2 s.schedule)) ∧
      (noExt 2 s.schedule = true → quiet s.cfg s.pmc m = true → count t m = count s m) := by
  have hm := monitorOf_ofNat m
  have hinv : Inv (goto .stopP0 { s with xM := BitVec.ofNat 32 m.val }) := ⟨hc, by simp [latchesHold]⟩
  obtain ⟨pm, t, hrun, hidle, hsched, hend, -⟩ := runOp_ending (l := s.schedule) hinv Phase.noConfusion rfl hx hu
  obtain ⟨hpmc, hstatus, hvalue, -⟩ := Ending.mk.inj hend
  have hword := hpmc.symm.trans (stopWord_eq s.cfg hm _)
  refine ⟨t, (execStop_accepted m hp rfl).trans hrun, hidle, hsched, hstatus.symm, hword, hvalue.symm, fun hnoExt p e hcount => ?_,
    fun hnoExt hquiet => ?_⟩
  · exact runOp_countsOn (p := p) (e := e) hinv hcount hnoExt hu hrun
  · have hstops : StopsQuiet m (count s m) (goto .stopP0 { s with xM := BitVec.ofNat 32 m.val }) :=
      ⟨hinv, .inr (.inl rfl), hm, fun _ => hquiet, rfl⟩
    exact hstops.runOp hnoExt hu hrun

/-! ## RESETM -/

/-- What CNT's turns and the codec keep between RESETM's two accesses: the word read, in x[W], and the result registers. -/
def ResetmHolds (a s : State) : Prop := s.xW = a.pmc ∧ s.status = a.status ∧ s.value = a.value

/-- RESETM, with EXT out up to its write (R114): the write is made from the word read, and is the only change but for CNT's turns. -/
theorem execResetm_exclusive (m : Monitor) {s : State} (hc : s.cfg.WF) (hx : noExt 1 s.schedule = true)
    (hu : Unbroken s.cfg 1 s.schedule = true) :
    ∃ u, execResetm m s = .next (storePmc (install s.pmc (monMask m) (reset2 s.cfg m)) u) ∧ ResetmHolds s u ∧ u.cfg = s.cfg ∧
      u.schedule = afterAccesses 1 s.schedule ∧
      ∀ p e, counting s.cfg s.pmc p e = true → count u p = count s p + BitVec.ofNat 64 (turns p 1 s.schedule) := by
  obtain ⟨u, hrun, hholds, -, hcfg, hsched, hturns⟩ := resetmTail_exclusive (Q := ResetmHolds s) m (fun _ _ hQ => hQ)
    (fun k u t hQ ht => by
      obtain ⟨⟨pm, n, rfl⟩, -⟩ := cntStep_frame ht
      exact hQ)
    (fun _ _ hQ => hQ) s.schedule (resetmRead s) ⟨rfl, rfl, rfl⟩ hc hx hu
  refine ⟨u, hrun.trans ?_, hholds, hcfg, hsched, hturns⟩
  rw [resetmWrite, hholds.1, hcfg]
  rfl

/-- Settles O39: STOP under EXCL, its write P1 by itself, and RESETM, whose write zeroes its monitor and leaves a counting other one. -/
theorem stopAndResetmUnderExcl : Obligations.StopAndResetmUnderExcl := by
  intro s m hc
  refine ⟨fun hp hx hu => ?_, fun t hp hm h => seqStep_stopP1_count hc hp hm h, fun hx hu => ?_⟩
  · obtain ⟨t, hexec, hidle, hsched, hstatus, hword, hvalue, hcounts⟩ := execStop_underExcl m hc hp hx hu
    exact ⟨t, hexec, hidle, hsched, hstatus, hword, hword ▸ quiet_install_stop2 hc _ m, hvalue, hcounts⟩
  · obtain ⟨u, hexec, ⟨hxW, hstatus, hvalue⟩, hcfg, hsched, hturns⟩ := execResetm_exclusive m hc hx hu
    refine ⟨_, hexec, hsched, rfl, quiet_install_reset2 s.cfg s.pmc m, count_storePmc_reset fun k hk => ?_, hxW, hstatus, hvalue,
      fun p e hpm hcount => ?_⟩
    · rw [hcfg, reset2_eq, nib_install_pair, if_pos hk]
    · exact (count_store_other hpm (hcfg ▸ hcount)).trans (hturns p e hcount)

end Sys2Proof.Machine
end

section
/-! PROOFS. READ (O25, O28, O35, O36; R130 to R136): `VALUE` is what its two reads join, so it is the count where nothing changes the count between
them. -/

namespace Sys2Proof.Machine

theorem execRead_accepted {s : State} (m : Monitor) (hp : s.pc = .idle) {l : List Move} (hs : s.schedule = l) :
    execRead (BitVec.ofNat 32 m.val) s = runOp l (goto .readR0 { s with xM := BitVec.ofNat 32 m.val }) := by
  rw [execRead, if_pos hp, monitorOf_ofNat, hs]

/-! ## READ uninterrupted (R130 to R133) -/

theorem execRead_alone {s : State} (hp : s.pc = .idle) (hs : s.schedule = []) (m : Monitor) :
    execRead (BitVec.ofNat 32 m.val) s = .next { s with
      xM := BitVec.ofNat 32 m.val, xHI := s.pm[highSlot m], xLO := s.pm[lowSlot m]
      value := combine s.pm[highSlot m] s.pm[lowSlot m]
      trace := .rdPm (lowSlot m) s.pm[lowSlot m] :: .rdPm (highSlot m) s.pm[highSlot m] :: s.trace } := by
  have hm := monitorOf_ofNat m
  rw [execRead_accepted m hp hs, runOp, finish_seqStep 5 Phase.noConfusion (seqStep_readR0 rfl hm),
    finish_seqStep 4 Phase.noConfusion (seqStep_readR1 rfl hm), finish_idle 4 rfl, ← hp, ← hs]
  rfl

/-- The two halves joined are the count (R29, R132). -/
theorem combine_eq_count (s : State) (m : Monitor) : combine s.pm[highSlot m] s.pm[lowSlot m] = count s m := combine_eq_append _ _

/-- Settles O25: the two accesses in order, and the combination as R132 writes it out. -/
theorem readEndState : Obligations.ReadEndState :=
  fun s m hp hs => ⟨execRead_alone hp hs m, combine_eq_count s m⟩

/-- READ of an invalid monitor answers the sentinel with no port access (R133). -/
theorem execRead_invalid {s : State} {mon : Word} (hp : s.pc = .idle) (h0 : mon.toInt ≠ 0) (h1 : mon.toInt ≠ 1) :
    execRead mon s = .next { s with xM := mon, value := readSentinel } := by
  have hm : monitorOf mon = none := by rw [monitorOf, if_neg h0, if_neg h1]
  rw [execRead, if_pos hp, hm]

/-- Settles O28: the sentinel is all ones, and so is a count whose halves are. -/
theorem sentinelIsAmbiguous : Obligations.SentinelIsAmbiguous := by
  intro s hp
  refine ⟨fun mon h0 h1 => execRead_invalid hp h0 h1, fun m hs hhigh hlow => ⟨_, execRead_alone hp hs m, ?_⟩⟩
  show combine s.pm[highSlot m] s.pm[lowSlot m] = _
  rw [hhigh, hlow]
  decide

/-! ## A counting monitor: the carry race (R134) -/

/-- The high half of one count joined to the low half of another is the latter less the carries between them. -/
theorem join_high_low (c d : Count) :
    c.extractLsb' 32 32 ++ d.extractLsb' 0 32 = d - ((d.extractLsb' 32 32 - c.extractLsb' 32 32).setWidth 64 <<< 32) := by
  apply BitVec.eq_of_toNat_eq
  rw [append_toNat, BitVec.toNat_sub, BitVec.toNat_shiftLeft, BitVec.toNat_setWidth, BitVec.toNat_sub, high_toNat, high_toNat, low_toNat,
    Nat.shiftLeft_eq]
  have := c.isLt
  have := d.isLt
  omega

/-- With fewer than 2^32 counts between the two reads, and no 64-bit wrap, there is at most one carry. -/
theorem join_high_low_add {c : Count} {n : Nat} (hn : n < 2 ^ 32) (hc : c.toNat + n < 2 ^ 64) :
    (c.extractLsb' 32 32 ++ (c + BitVec.ofNat 64 n).extractLsb' 0 32).toNat = (c + BitVec.ofNat 64 n).toNat ∨
      ((c.extractLsb' 32 32 ++ (c + BitVec.ofNat 64 n).extractLsb' 0 32).toNat + 2 ^ 32 = (c + BitVec.ofNat 64 n).toNat ∧
        (c.extractLsb' 32 32 ++ (c + BitVec.ofNat 64 n).extractLsb' 0 32).toNat < c.toNat) := by
  have hsum : (c + BitVec.ofNat 64 n).toNat = c.toNat + n := by
    rw [BitVec.toNat_add, BitVec.toNat_ofNat]
    omega
  rw [append_toNat, high_toNat, low_toNat, hsum]
  omega

/-- READ's first access: the high half (R130, R131). -/
theorem runOp_readR0 {s : State} {m : Monitor} (hp : s.pc = .readR0) (hm : monitorOf s.xM = some m) (l : List Move) :
    runOp (.seq :: l) s = runOp l (goto .readR1 (fetchHigh (highSlot m) s)) := by
  rw [runOp_cons .seq l s (hp ▸ Phase.noConfusion) Move.noConfusion, agentStep, seqStep_readR0 hp hm, andThen_next]

/-- READ's last access: the low half, joined to the high half in the latch (R130, R132). -/
theorem runOp_readR1 {s : State} {m : Monitor} (hp : s.pc = .readR1) (hm : monitorOf s.xM = some m) (l : List Move) :
    ∃ t, runOp (.seq :: l) s = .next t ∧ t.pc = .idle ∧ t.pmc = s.pmc ∧ t.pm = s.pm ∧
      t.value = s.xHI ++ (count s m).extractLsb' 0 32 := by
  have hi : s.pc ≠ .idle := hp ▸ Phase.noConfusion
  have hvalue : combine s.xHI s.pm[lowSlot m] = s.xHI ++ (count s m).extractLsb' 0 32 := by rw [combine_eq_append, low_count]
  have hrun := runOp_cons .seq l s hi Move.noConfusion
  rw [agentStep, seqStep_readR1 hp hm, andThen_next, runOp_idle l _ rfl] at hrun
  exact ⟨_, hrun, rfl, rfl, rfl, hvalue⟩

/-- READ of a counting monitor with n turns of CNT between R0 and R1: the two halves are of two counts n apart. -/
theorem runOp_readR0_counting {s : State} {m : Monitor} {e : Event} (n : Nat) (l : List Move) (hp : s.pc = .readR0)
    (hm : monitorOf s.xM = some m) (hcount : counting s.cfg s.pmc m e = true) :
    ∃ t, runOp (.seq :: (List.replicate n (.cnt (lowSlot m)) ++ .seq :: l)) s = .next t ∧ t.pc = .idle ∧ t.pmc = s.pmc ∧
      count t m = count s m + BitVec.ofNat 64 n ∧
      t.value = (count s m).extractLsb' 32 32 ++ (count t m).extractLsb' 0 32 := by
  obtain ⟨pm, hturns, hsum⟩ := runOp_counts m e n (goto .readR1 (fetchHigh (highSlot m) s)) (.seq :: l) hcount Phase.noConfusion
  obtain ⟨t, hlast, hidle, hpmc, hpm, hvalue⟩ :=
    runOp_readR1 (s := { goto .readR1 (fetchHigh (highSlot m) s) with pm := pm }) rfl hm l
  have hkept : count t m = count { goto .readR1 (fetchHigh (highSlot m) s) with pm := pm } m := count_congr _ t m fun _ _ => by rw [hpm]
  refine ⟨t, (runOp_readR0 hp hm _).trans (hturns.trans hlast), hidle, hpmc, hkept.trans hsum, ?_⟩
  rw [hvalue, hkept, ← high_count]
  rfl

theorem execRead_counting {s : State} {m : Monitor} {e : Event} {n : Nat} {l : List Move} (hp : s.pc = .idle)
    (hcount : counting s.cfg s.pmc m e = true) (hs : s.schedule = .seq :: (List.replicate n (.cnt (lowSlot m)) ++ .seq :: l)) :
    ∃ t, execRead (BitVec.ofNat 32 m.val) s = .next t ∧ t.pc = .idle ∧ t.pmc = s.pmc ∧
      count t m = count s m + BitVec.ofNat 64 n ∧
      t.value = (count s m).extractLsb' 32 32 ++ (count t m).extractLsb' 0 32 := by
  obtain ⟨t, hrun, hrest⟩ := runOp_readR0_counting n l (s := goto .readR0 { s with xM := BitVec.ofNat 32 m.val }) rfl
    (monitorOf_ofNat m) hcount
  exact ⟨t, (execRead_accepted m hp hs).trans hrun, hrest⟩

/-- Settles O35: the halves are joined as they were read; between the two reads the counts can carry. -/
theorem readCarryRace : Obligations.ReadCarryRace := by
  intro s m e n rest hp hcount hs
  obtain ⟨t, hexec, hidle, hpmc, hsum, hvalue⟩ := execRead_counting hp hcount hs
  refine ⟨t, hexec, hidle, hpmc, hsum, hvalue, hvalue.trans (join_high_low _ _), fun hhigh => ?_, fun hn hwrap => ?_⟩
  · rw [hvalue, ← hhigh, halves_append]
  · rw [hvalue, hsum]
    exact join_high_low_add hn hwrap

/-! ## A quiet monitor: the exact count (R136) -/

/-- READ of monitor m is in progress from `a` on, or has ended; m is quiet and has the count it had in `a`. -/
structure ReadsQuiet (m : Monitor) (a s : State) : Prop where
  xM : monitorOf s.xM = some m
  quiet : quiet s.cfg s.pmc m = true
  pmc : s.pmc = a.pmc
  status : s.status = a.status
  count : count s m = count a m
  progress : s.pc = .readR0 ∨ (s.pc = .readR1 ∧ s.xHI = (Machine.count a m).extractLsb' 32 32) ∨ (s.pc = .idle ∧ s.value = Machine.count a m)

namespace ReadsQuiet

variable {m : Monitor} {a s t : State}

theorem refl (hp : s.pc = .readR0) (hm : monitorOf s.xM = some m) (hq : Machine.quiet s.cfg s.pmc m = true) : ReadsQuiet m s s :=
  ⟨hm, hq, rfl, rfl, rfl, .inl hp⟩

theorem seqStep (hs : ReadsQuiet m a s) (hi : s.pc ≠ .idle) : ∃ t, Machine.seqStep s = .next t ∧ ReadsQuiet m a t := by
  obtain ⟨hm, hquiet, hpmc, hstatus, hcount, hp | ⟨hp, hhigh⟩ | ⟨hp, -⟩⟩ := hs
  · have hhigh : s.pm[highSlot m] = (Machine.count a m).extractLsb' 32 32 := by rw [high_count, hcount]
    exact ⟨_, seqStep_readR0 hp hm, hm, hquiet, hpmc, hstatus, hcount, .inr (.inl ⟨rfl, hhigh⟩)⟩
  · have hvalue : combine s.xHI s.pm[lowSlot m] = Machine.count a m := by
      rw [combine_eq_append, hhigh, low_count, hcount, halves_append]
    exact ⟨_, seqStep_readR1 hp hm, hm, hquiet, hpmc, hstatus, hcount, .inr (.inr ⟨rfl, hvalue⟩)⟩
  · exact absurd hp hi

theorem cntStep {k : Slot} (hs : ReadsQuiet m a s) (h : Machine.cntStep k s = .next t) : ReadsQuiet m a t := by
  obtain ⟨hm, hquiet, hpmc, hstatus, hcount, hprogress⟩ := hs
  obtain ⟨⟨pm, n, rfl⟩, -, hkeep⟩ := cntStep_frame h
  exact ⟨hm, hquiet, hpmc, hstatus, (count_congr s _ m fun j hj => hkeep j (hj ▸ hquiet)).trans hcount, hprogress⟩

/-- With EXT out, READ of a quiet monitor ends with the count it had, which it still has. -/
theorem runOp {l : List Move} (hs : ReadsQuiet m a s) (hc : s.cfg.WF) (hx : noExt s.pc.left l = true)
    (hu : Unbroken s.cfg s.pc.left l = true) :
    ∃ t, Machine.runOp l s = .next t ∧ t.pc = .idle ∧ t.schedule = afterAccesses s.pc.left l ∧
      t.value = Machine.count a m ∧ Machine.count t m = Machine.count a m ∧ t.pmc = a.pmc ∧ t.status = a.status := by
  obtain ⟨t, ht, ⟨-, -, hpmc, hstatus, hcount, hprogress⟩, hidle, hsched⟩ := runOp_exclusive (Q := ReadsQuiet m a)
    (fun _ _ ⟨hm, hquiet, hpmc, hstatus, hcount, hprogress⟩ => ⟨hm, hquiet, hpmc, hstatus, hcount, hprogress⟩) (fun _ hQ => hQ.seqStep)
    (fun _ _ _ hQ _ => hQ.cntStep)
    (fun _ _ ⟨hm, hquiet, hpmc, hstatus, hcount, hprogress⟩ => ⟨hm, hquiet, hpmc, hstatus, hcount, hprogress⟩) l s hs hc hx hu
  have hvalue : t.value = Machine.count a m := by simpa [hidle] using hprogress
  exact ⟨t, ht, hidle, hsched, hvalue, hcount, hpmc, hstatus⟩

end ReadsQuiet

/-- Settles O36: from its first access on READ finds the monitor quiet; where EXT stays out before it too, from its acceptance on. -/
theorem quietReadExact : Obligations.QuietReadExact := by
  intro s m hc hp hu
  have hm := monitorOf_ofNat m
  have hexec := execRead_accepted m hp rfl
  refine ⟨fun hx hquiet => ?_, fun hx hquiet => ?_⟩
  · obtain ⟨pm, n, v, r, hfirst, hx', hu', hafter⟩ :=
      runOp_first s.schedule (goto .readR0 { s with xM := BitVec.ofNat 32 m.val }) hc Phase.noConfusion hx hu
    have hreads : ReadsQuiet m _ { goto .readR0 { s with xM := BitVec.ofNat 32 m.val } with
      pmc := pmcAtFirst s.pmc s.schedule, pm := pm, drawn := n, codecOut := v } := .refl rfl hm hquiet
    obtain ⟨t, hrest, hidle, hsched, hvalue, hcount, hpmc, hstatus⟩ := hreads.runOp hc hx' hu'
    exact ⟨t, hexec.trans (hfirst.trans hrest), hidle, hsched.trans hafter, hvalue.trans hcount.symm, hpmc, hstatus⟩
  · have hreads : ReadsQuiet m _ (goto .readR0 { s with xM := BitVec.ofNat 32 m.val }) := .refl rfl hm hquiet
    obtain ⟨t, hrun, -, -, hvalue, hcount, -⟩ := hreads.runOp hc hx hu
    exact ⟨t, hexec.trans hrun, hvalue, hcount⟩

end Sys2Proof.Machine
end

section
/-! PROOFS. The measured count (O40; R136): START, n turns of CNT, STOP and READ, one step of the machine each. -/

namespace Sys2Proof.Machine

theorem run_of_step (M : Host.Core) {s t : M.State} (h : M.step s = .next t) (k : Nat) : M.run (k + 1) s = M.run k t := by
  rw [Host.Core.run, h]

/-- CALLER's command at IDLE: the step is its meaning, with the latches loaded. -/
theorem step_caller {s : State} {w : BitVec 67} {i : Instr} {l : List Move} (hp : s.pc = .idle) (hs : s.schedule = .caller w :: l)
    (h4 : cwOp w ≠ 4) (hd : decodeCmd w = .ok i) : step s = exec i { s with schedule := l, xM := cwMon w, xE := cwEv w } :=
  (step_eq_nextMove hp hs).trans (presentCaller_ok h4 hd _)

/-- START of a chained monitor, with no move between its accesses: its pair counts from 0 (R116, R118). -/
theorem step_start {s : State} {m : Monitor} {ev : Word} {l : List Move} (hc : s.cfg.WF) (hp : s.pc = .idle) (hlo : s.cfg.evMin ≤ ev.toInt)
    (hhi : ev.toInt ≤ s.cfg.evMax) (hchained : chained s.cfg s.pmc m = true)
    (hs : s.schedule = .caller (cwOf 1 (BitVec.ofNat 32 m.val) ev) :: .seq :: .seq :: .seq :: l) :
    ∃ t, step s = .next t ∧ t.pc = .idle ∧ t.schedule = l ∧ t.cfg = s.cfg ∧ count t m = 0 ∧
      counting t.cfg t.pmc m (ev.setWidth 4) = true := by
  have hstep := step_caller hp hs (by simp) (decodeCmd_start _ _)
  rw [cwMon_cwOf, cwEv_cwOf] at hstep
  obtain ⟨t, -, hexec, -, hidle, hsched, -, hzero, -, hcounts, -⟩ := startUnderExcl
    { s with schedule := .seq :: .seq :: .seq :: l, xM := BitVec.ofNat 32 m.val, xE := ev } m ev hc hp (by simp [Exclusive]) (by simp) hlo hhi
  have ht := hstep.trans hexec
  have hcfg : t.cfg = s.cfg := configurationFixed s t ht
  refine ⟨t, ht, hidle, hsched.trans (by simp), hcfg, hzero, ?_⟩
  rw [hcfg]
  exact hcounts hchained

/-- STOP of a counting monitor, with no move between its accesses: the count stays (R117). -/
theorem step_stop {s : State} {m : Monitor} {e : Event} {l : List Move} (hc : s.cfg.WF) (hp : s.pc = .idle)
    (hcount : counting s.cfg s.pmc m e = true) (hs : s.schedule = .caller (cwOf 2 (BitVec.ofNat 32 m.val) 0) :: .seq :: .seq :: l) :
    ∃ t, step s = .next t ∧ t.pc = .idle ∧ t.schedule = l ∧ t.status = 0 ∧ count t m = count s m := by
  have hstep := step_caller hp hs (by simp) (decodeCmd_stop _ _)
  rw [cwMon_cwOf, cwEv_cwOf] at hstep
  obtain ⟨t, hexec, hidle, hsched, hstatus, -, -, hcounts, -⟩ := execStop_underExcl
    (s := { s with schedule := .seq :: .seq :: l, xM := BitVec.ofNat 32 m.val, xE := 0 }) m hc hp (by simp [Exclusive]) (by simp)
  have hsum := hcounts (by simp) m e hcount
  exact ⟨t, hstep.trans hexec, hidle, hsched.trans (by simp), hstatus, hsum.trans (by simp [count])⟩

/-- READ with nothing after it answers the count, and STATUS stays (R130, R132). -/
theorem step_read {s : State} {m : Monitor} (hp : s.pc = .idle) (hs : s.schedule = [.caller (cwOf 3 (BitVec.ofNat 32 m.val) 0)]) :
    ∃ t, step s = .next t ∧ t.pc = .idle ∧ t.status = s.status ∧ t.value = count s m := by
  have hstep := step_caller hp hs (by simp) (decodeCmd_read _ _)
  rw [cwMon_cwOf, cwEv_cwOf] at hstep
  have hexec := execRead_alone (s := { s with schedule := [], xM := BitVec.ofNat 32 m.val, xE := 0 }) hp rfl m
  exact ⟨_, hstep.trans hexec, hp, rfl, combine_eq_count s m⟩

/-- CNT's turn at IDLE in a counting pair is one step, and one COUNT (R97). -/
theorem step_cnt_counting {s : State} {m : Monitor} {e : Event} {l : List Move} (hp : s.pc = .idle)
    (hcount : counting s.cfg s.pmc m e = true) (hs : s.schedule = .cnt (lowSlot m) :: l) :
    step s = .next (countPair m { s with schedule := l }) := by
  rw [step_eq_nextMove hp hs]
  rw [← pairOf_lowSlot m] at hcount
  have hturn := cntStep_counting (s := { s with schedule := l }) hcount
  rw [pairOf_lowSlot] at hturn
  exact hturn

/-- n turns of CNT at IDLE in a counting pair are n steps: the count goes up by n, and nothing else changes. -/
theorem run_counts (m : Monitor) (e : Event) (n k : Nat) (l : List Move) : ∀ s : State, s.pc = .idle →
    counting s.cfg s.pmc m e = true → s.schedule = List.replicate n (.cnt (lowSlot m)) ++ l →
    ∃ pm, core.run (n + k) s = core.run k { s with pm := pm, schedule := l } ∧
      count { s with pm := pm, schedule := l } m = count s m + BitVec.ofNat 64 n := by
  induction n with
  | zero =>
    intro s _ _ hs
    refine ⟨s.pm, ?_, (BitVec.add_zero _).symm⟩
    rw [Nat.zero_add, show l = s.schedule from hs.symm]
  | succ n ih =>
    intro s hp hcount hs
    have hstep := step_cnt_counting hp hcount hs
    obtain ⟨pm, hrun, hsum⟩ := ih (countPair m { s with schedule := List.replicate n (.cnt (lowSlot m)) ++ l }) hp hcount rfl
    refine ⟨pm, ?_, hsum.trans ?_⟩
    · rw [Nat.add_right_comm]
      exact (run_of_step core hstep (n + k)).trans hrun
    · rw [count_countPair, BitVec.add_assoc, Nat.add_comm n 1, BitVec.ofNat_add]
      rfl

/-- Settles O40: START leaves the chained monitor counting from 0, the n turns count to n, STOP keeps that, and READ answers it. -/
theorem measuredCount : Obligations.MeasuredCount := by
  intro s m ev n hc hp hlo hhi hchained hs
  obtain ⟨t, hstart, hidle, hsched, hcfg, hzero, hcounting⟩ := step_start hc hp hlo hhi hchained hs
  obtain ⟨pm, hturns, hsum⟩ := run_counts m _ n 2 _ t hidle hcounting hsched
  have hct : t.cfg.WF := hcfg ▸ hc
  obtain ⟨u, hstop, hidle', hsched', hstatus, hkept⟩ := step_stop (s := { t with pm := pm, schedule := _ }) hct hidle hcounting rfl
  obtain ⟨v, hread, hidle'', hstatus', hvalue⟩ := step_read hidle' hsched'
  have hrun := calc
    core.run (n + 3) s = core.run (n + 2) t := run_of_step core hstart (n + 2)
    _ = core.run 2 _ := hturns
    _ = core.run 1 u := run_of_step core hstop 1
    _ = core.run 0 v := run_of_step core hread 0
  refine ⟨v, hrun, ?_, hstatus'.trans hstatus, hidle''⟩
  rw [hvalue, hkept, hsum, hzero]
  exact BitVec.zero_add _

end Sys2Proof.Machine
end

section
/-! PROOFS. Invalid arguments (O27; R111, R112, R144): the command ends in the step that accepts it, before the schedule is read. -/

namespace Sys2Proof.Machine

/-- A word names no monitor exactly outside 0 and 1 (R111). -/
theorem monitorOf_eq_none_iff (x : Word) : monitorOf x = none ↔ x.toInt ≠ 0 ∧ x.toInt ≠ 1 := by
  rw [← Option.isNone_iff_eq_none, ← Option.not_isSome, monitorOf_isSome]
  simp [validMon]

/-- A word names no event exactly outside the configuration's range (R112). -/
theorem eventOf_eq_none_iff (c : Cfg) (x : Word) : eventOf c x = none ↔ x.toInt < c.evMin ∨ c.evMax < x.toInt := by
  rw [← Option.not_isSome_iff_eq_none, eventOf_isSome, validEv_iff, not_and_or, not_le, not_le]

/-- At IDLE, `fail` changes `STATUS` only (R10). -/
theorem fail_of_idle {s : State} (hp : s.pc = .idle) (st : Word) : fail st s = { s with status := st } := by
  rw [fail, ← hp]

theorem execStart_invalid {s : State} {mon ev : Word} (hp : s.pc = .idle) (h : monitorOf mon = none ∨ eventOf s.cfg ev = none) :
    execStart mon ev s = .next (fail s.cfg.stEinval { s with xM := mon, xE := ev }) := by
  rw [execStart, if_pos hp]
  cases hm : monitorOf mon with
  | none => rfl
  | some m =>
    have he : eventOf s.cfg ev = none := h.resolve_left (by simp [hm])
    rw [he]

theorem execStop_invalid {s : State} {mon : Word} (hp : s.pc = .idle) (hm : monitorOf mon = none) :
    execStop mon s = .next (fail s.cfg.stEinval { s with xM := mon }) := by
  rw [execStop, if_pos hp, hm]

/-- Settles O27: START and STOP fail at their checks, and READ answers the sentinel at its own. -/
theorem invalidArgumentsFail : Obligations.InvalidArgumentsFail := by
  intro s mon ev hp
  refine ⟨fun h => ?start, fun h0 h1 => ?stop, fun h0 h1 => execRead_invalid hp h0 h1⟩
  case start =>
    have hinvalid : monitorOf mon = none ∨ eventOf s.cfg ev = none :=
      h.imp (monitorOf_eq_none_iff mon).2 (eventOf_eq_none_iff s.cfg ev).2
    calc exec (.start mon ev) s
      _ = .next (fail s.cfg.stEinval { s with xM := mon, xE := ev }) := execStart_invalid hp hinvalid
      _ = _ := congrArg _ (fail_of_idle (s := { s with xM := mon, xE := ev }) hp _)
  case stop =>
    have hm : monitorOf mon = none := (monitorOf_eq_none_iff mon).2 ⟨h0, h1⟩
    calc exec (.stop mon) s
      _ = .next (fail s.cfg.stEinval { s with xM := mon }) := execStop_invalid hp hm
      _ = _ := congrArg _ (fail_of_idle (s := { s with xM := mon }) hp _)

end Sys2Proof.Machine
end

section
/-! PROOFS. Commands during an operation (O29; R169): each command asks first for IDLE, and away from it CALLER's word is a move made beside the
operation in progress, which the port refuses. -/

namespace Sys2Proof.Machine

section

variable {s : State} (hp : s.pc ≠ .idle)
include hp

theorem execSetup_busy : execSetup s = .refused .busy := if_neg hp

theorem execStart_busy (mon ev : Word) : execStart mon ev s = .refused .busy := if_neg hp

theorem execStop_busy (mon : Word) : execStop mon s = .refused .busy := if_neg hp

theorem execRead_busy (mon : Word) : execRead mon s = .refused .busy := if_neg hp

/-- Away from IDLE the operation in progress goes on among the scheduled moves. -/
theorem step_eq_runOp {l : List Move} (hs : s.schedule = l) : step s = runOp l s := by
  rw [step, if_neg hp, hs]

theorem runOp_caller (w : BitVec 67) (rest : List Move) : runOp (.caller w :: rest) s = .refused .busy :=
  calc runOp (.caller w :: rest) s
    _ = andThen (agentStep (.caller w) s) (runOp rest) := runOp_cons _ _ _ hp Move.noConfusion
    _ = andThen (.refused .busy) (runOp rest) := rfl
    _ = .refused .busy := andThen_refused .busy _

end

/-- Settles O29: the four commands fail their test for IDLE, and CALLER's word is the next move among which the operation would go on. -/
theorem busyCommandsRefused : Obligations.BusyCommandsRefused := fun _ mon ev hp =>
  ⟨execSetup_busy hp, execStart_busy hp mon ev, execStop_busy hp mon, execRead_busy hp mon,
    fun w rest hs => (step_eq_runOp hp hs).trans (runOp_caller hp w rest)⟩

end Sys2Proof.Machine
end

section
/-! PROOFS. Written-out words (O3; R62, R68, R69, R72): a row of the opcode table is read as the word of its format (log 12), so each word is
settled by its fields and the decoder's lemma about them. -/

namespace Sys2Proof

open Machine

/-! ## A table row's word is its format's word (log 12) -/

section

variable {nbits w : Nat} {ew : EncWord} (hw : tableWord nbits w = some ew)
include hw

theorem decodeTableWord_ok {i : Instr} (hd : decode cfgRef ew = .ok i) : decodeTableWord nbits w = some i := by
  simp only [decodeTableWord, hw, hd]

theorem decodeTableWord_error {d : DecodeError} (hd : decode cfgRef ew = .error d) : decodeTableWord nbits w = none := by
  simp only [decodeTableWord, hw, hd]

end

/-- A command word written in nine bytes. -/
theorem tableWord_cmd (x : BitVec 67) : tableWord 72 x.toNat = some (.cmd x) := by simp [tableWord, x.isLt]

/-- A codec request word in one byte, where it is not one of the numbers 1 to 15 that stand for nibbles in that width. -/
theorem tableWord_codec {x : BitVec 8} (hnib : 16 ≤ x.toNat) : tableWord 8 x.toNat = some (.codec x) := by
  simp [tableWord, Nat.not_lt.2 hnib, x.isLt]

theorem decodeTableWord_codec {x : BitVec 8} {i : Instr} (hnib : 16 ≤ x.toNat) (hd : decodeCodec x = i) :
    decodeTableWord 8 x.toNat = some i :=
  decodeTableWord_ok (tableWord_codec hnib) (congrArg Except.ok hd)

/-- A nibble is put at slot 0. -/
theorem tableWord_nib (n : Nibble) : tableWord 4 n.toNat = some (.nib 0 n) := by simp [tableWord, n.isLt]

/-! ## The words -/

/-- Settles O3: format by format, the word's fields, and what the decoder reads from them. -/
theorem writtenOutWordsDecode : Obligations.WrittenOutWordsDecode := by
  have hreserved : decodeCmd (cwOf 5 0 0) = .error _ := decodeCmd_reservedOp (by rw [cwOp_cwOf]; decide)
  have hrun : nibCmd cfgRef 5 = .run 5 := nibCmd_run cfgRef cfgRef_wf 5 5 rfl
  have hstop : nibCmd cfgRef 0xE = .stop := nibCmd_stop cfgRef cfgRef_wf
  have hreset : nibCmd cfgRef 0xF = .reset := nibCmd_reset cfgRef
  refine ⟨?setup, ?start, ?stop, ?read, ?resetm, ?reserved, ?mask, ?encStart, ?encStop, ?encReset, ?nibRun, ?nibStop, ?nibReset⟩
  case setup => exact decodeTableWord_ok (tableWord_cmd (cwOf 0 0 0)) (decodeCmd_setup 0 0)
  case start => exact decodeTableWord_ok (tableWord_cmd (cwOf 1 1 13)) (decodeCmd_start 1 13)
  case stop => exact decodeTableWord_ok (tableWord_cmd (cwOf 2 0x80000000 0xDEADBEEF)) (decodeCmd_stop 0x80000000 0xDEADBEEF)
  case read => exact decodeTableWord_ok (tableWord_cmd (cwOf 3 0xFFFFFFFF 0)) (decodeCmd_read 0xFFFFFFFF 0)
  case resetm => exact decodeTableWord_ok (tableWord_cmd (cwOf 4 1 0)) (decodeCmd_resetm 0 1)
  case reserved => exact decodeTableWord_error (tableWord_cmd (cwOf 5 0 0)) hreserved
  case mask => exact decodeTableWord_codec (by decide) (decodeCodec_mask 2 0xF)
  case encStart => exact decodeTableWord_codec (by decide) (decodeCodec_encStart 3 13)
  case encStop => exact decodeTableWord_codec (by decide) (decodeCodec_encStop 1 0)
  case encReset => exact decodeTableWord_codec (by decide) (decodeCodec_encReset 3 0)
  case nibRun => exact decodeTableWord_ok (tableWord_nib 5) (decodeNib_eq_ok_iff.2 (.inl ⟨5, hrun, rfl⟩))
  case nibStop => exact decodeTableWord_ok (tableWord_nib 0xE) (decodeNib_eq_ok_iff.2 (.inr (.inl ⟨hstop, rfl⟩)))
  case nibReset => exact decodeTableWord_ok (tableWord_nib 0xF) (decodeNib_eq_ok_iff.2 (.inr (.inr ⟨hreset, rfl⟩)))

end Sys2Proof
end

section
/-! PROOFS. NIB_RUN outside an undefined pair (O13, O16; R91, R97): one COUNT where the pair counts the event, and no change where it counts
nothing of it (log 9). -/

namespace Sys2Proof.Machine

theorem exec_nibRun_counting {s : State} {k : Slot} {e : Event} (h : counting s.cfg s.pmc (pairOf k) e = true) :
    exec (.nibRun k e) s = .next (countPair (pairOf k) s) := by
  rw [exec, execNibRun, if_pos h]

theorem exec_nibRun_elsewhere {s : State} {k : Slot} {e : Event} (hc : counting s.cfg s.pmc (pairOf k) e = false)
    (hu : undefinedPair s.cfg s.pmc (pairOf k) = false) : exec (.nibRun k e) s = .next s := by
  rw [exec, execNibRun, if_neg (Bool.eq_false_iff.1 hc), if_neg (Bool.eq_false_iff.1 hu)]

/-- Settles O13: the turn is one COUNT of the pair, which adds one to its count and leaves the other pair's counters. -/
theorem runCounts : Obligations.RunCounts :=
  fun s k _ h => ⟨_, exec_nibRun_counting h, count_countPair (pairOf k) s, setPair_other _ _ s.pm⟩

/-- Settles O16: neither of the two steps of the counters is enabled. -/
theorem runElsewhereChangesNothing : Obligations.RunElsewhereChangesNothing := fun _ _ _ => exec_nibRun_elsewhere

end Sys2Proof.Machine
end

section
/-! PROOFS. RESETM uninterrupted (O26; R114): its read and its write, with no move between them. -/

namespace Sys2Proof.Machine

/-- RESETM writes from the word it has just read, at whatever phase it is run (log 11). -/
theorem execResetm_alone (m : Monitor) {s : State} (hs : s.schedule = []) {w : Word}
    (hw : install s.pmc (monMask m) (reset2 s.cfg m) = w) :
    execResetm m s = .next { s with
      pmc := w, pm := resetCounters s.cfg w s.pm, xW := s.pmc, trace := .wrPmc w :: .rdPmc s.pmc :: s.trace } := by
  subst hw
  rw [execResetm, hs, resetmTail, ← hs]
  rfl

/-- RESETM's store zeroes its monitor's counters, and the others whose carried-over nibble is `NIB_RESET` (R95). -/
theorem resetCounters_reset2_get (c : Cfg) (w : Word) (m : Monitor) (pm : Vector Word 4) (k : Slot) :
    (resetCounters c (install w (monMask m) (reset2 c m)) pm)[k] = if pairOf k = m ∨ nib w k = c.nibReset then 0 else pm[k] := by
  rw [reset2_eq, resetCounters_install_get]
  by_cases hk : pairOf k = m
  · simp [hk]
  · simp [hk]

/-- Settles O26: the one write puts `NIB_RESET` in the monitor's nibbles. -/
theorem resetmEndState : Obligations.ResetmEndState :=
  fun s m _ hs => ⟨_, resetCounters_reset2_get s.cfg s.pmc m s.pm, execResetm_alone m hs rfl⟩

end Sys2Proof.Machine
end
